-- ==== Sys2Proof/Word.lean ====
section
/-! DEFINITION. The unit of the block: the byte (00_scope.md R8 BYTE, R10). A time is a `Nat` in units of 1 ms and of
unbounded width (R8 TIME_UNIT, TIME_WIDTH; decisions D2 and D10; log 9). -/

namespace Sys2Proof

/-- An unsigned 8-bit value; bit 0 is the least significant (00_scope.md R10). -/
abbrev Byte := BitVec 8

end Sys2Proof
end

