-- ==== Sys2Proof/Syntax.lean ====
section
/-! DEFINITION. The message types of spec/opcode_table.json, one constructor a row (00_scope.md R3, 30_encoding.md R52).
A constructor carries every bit of its frame that its row does not fix: `x` is header bit 7 (R46 `X`), `n` the length
code (R46 `N`), `s` or `b` byte 1 where the row leaves it open (R50), and `tail` the bytes after byte 1, the checksum
last (R45). In a 2-byte frame byte 1 is the checksum and `tail` is empty (R50). -/

namespace Sys2Proof

inductive Instr where
  /-- INTERVAL (42_demux.md R86): C = 1 and byte 1 = 0x81. -/
  | interval (x : Bool) (n : BitVec 4) (tail : List Byte)
  /-- DISTANCE (R87): C = 1 and byte 1 = 0x82. -/
  | distance (x : Bool) (n : BitVec 4) (tail : List Byte)
  /-- SPEED_UNRECOGNIZED (R89): C = 1 and byte 1 = `s`, neither 0x81 nor 0x82. -/
  | speedUnrecognized (x : Bool) (n : BitVec 4) (s : Byte) (tail : List Byte)
  /-- VOLTAGE (R88): C = 2; byte 1 = `b` is not examined. -/
  | voltage (x : Bool) (n : BitVec 4) (b : Byte) (tail : List Byte)
  /-- CAT0 (R90): C = 0. -/
  | cat0 (x : Bool) (n : BitVec 4) (b : Byte) (tail : List Byte)
  /-- CAT3 (R90): C = 3. -/
  | cat3 (x : Bool) (n : BitVec 4) (b : Byte) (tail : List Byte)
  /-- CAT4 (R90): C = 4. -/
  | cat4 (x : Bool) (n : BitVec 4) (b : Byte) (tail : List Byte)
  /-- CAT5 (R90): C = 5. -/
  | cat5 (x : Bool) (n : BitVec 4) (b : Byte) (tail : List Byte)
  /-- CAT6 (R90): C = 6. -/
  | cat6 (x : Bool) (n : BitVec 4) (b : Byte) (tail : List Byte)
  /-- CAT7 (R90): C = 7. -/
  | cat7 (x : Bool) (n : BitVec 4) (b : Byte) (tail : List Byte)
  deriving DecidableEq, Repr

end Sys2Proof
end

