-- ==== Sys2Proof/WellFormed.lean ====
section
/-! DEFINITION. Which terms of `Instr` are frames: the tail has as many bytes as the length code declares
(30_encoding.md R45, R47), and an unrecognised Speed frame's sub-type is neither recognised one (42_demux.md R89).
The checksum is no part of it: validity is VALIDATE's matter, not the encoding's (41_validator.md R78; log 14). -/

namespace Sys2Proof

/-- N bytes follow the byte after the header (R47: L = N + 2). -/
def tailFits (n : BitVec 4) (tail : List Byte) : Bool :=
  tail.length == n.toNat

/-- The sub-type is one of the 254 unrecognised values (42_demux.md R85, R89). -/
def subTypeUnrecognized (s : Byte) : Bool :=
  s != 0x81#8 && s != 0x82#8

/-- The well-formed instructions: exactly the frames of the type map (30_encoding.md R45 to R52). -/
def wellFormed : Instr → Bool
  | .interval _ n tail => tailFits n tail
  | .distance _ n tail => tailFits n tail
  | .speedUnrecognized _ n s tail => tailFits n tail && subTypeUnrecognized s
  | .voltage _ n _ tail => tailFits n tail
  | .cat0 _ n _ tail => tailFits n tail
  | .cat3 _ n _ tail => tailFits n tail
  | .cat4 _ n _ tail => tailFits n tail
  | .cat5 _ n _ tail => tailFits n tail
  | .cat6 _ n _ tail => tailFits n tail
  | .cat7 _ n _ tail => tailFits n tail

end Sys2Proof
end

