-- ==== Sys2Proof/Decode.lean ====
section
/-! DEFINITION. The frame format and the message-type map of 30_encoding.md: header fields, the length formula, the
decode word W, the opcode table's rows, the decoder (total on any bytes, rejecting by name), the encoder, and how a
word of spec/opcode_table.json is laid out as bytes of the stream. -/

namespace Sys2Proof

/-- `N = b0[3:0]`, the payload length code (30_encoding.md R46). -/
def lengthCode (b0 : Byte) : BitVec 4 :=
  b0.extractLsb' 0 4

/-- `C = b0[6:4]`, the message category (R46, R49). -/
def category (b0 : Byte) : BitVec 3 :=
  b0.extractLsb' 4 3

/-- `X = b0[7]`; nothing but the dispatched frame shows it (R46, R54). -/
def topBit (b0 : Byte) : Bool :=
  b0.getLsbD 7

/-- `L = zext_5(b0[3:0]) + 2`, from the header alone (R47, R58). -/
def frameLength (b0 : Byte) : Nat :=
  (lengthCode b0).toNat + 2

/-- The header byte `X C C C N N N N` (R46). -/
def headerByte (x : Bool) (c : BitVec 3) (n : BitVec 4) : Byte :=
  BitVec.ofBool x ++ c ++ n

/-- The decode word `W = (b0 << 8) | b1` (R51). -/
def decodeWord (b0 b1 : Byte) : BitVec 16 :=
  b0 ++ b1

/-- One row of the opcode table: it matches a frame when `(W & mask) = pattern` (R51, R52). -/
structure OpcodeRow where
  mnemonic : String
  mask : BitVec 16
  pattern : BitVec 16
  deriving DecidableEq, Repr

/-- The map of R52 as spec/opcode_table.json lists it. -/
def opcodeTable : List OpcodeRow :=
  [⟨"INTERVAL", 0x70FF#16, 0x1081#16⟩, ⟨"DISTANCE", 0x70FF#16, 0x1082#16⟩,
   ⟨"SPEED_UNRECOGNIZED", 0x7000#16, 0x1000#16⟩, ⟨"VOLTAGE", 0x7000#16, 0x2000#16⟩,
   ⟨"CAT0", 0x7000#16, 0x0000#16⟩, ⟨"CAT3", 0x7000#16, 0x3000#16⟩, ⟨"CAT4", 0x7000#16, 0x4000#16⟩,
   ⟨"CAT5", 0x7000#16, 0x5000#16⟩, ⟨"CAT6", 0x7000#16, 0x6000#16⟩, ⟨"CAT7", 0x7000#16, 0x7000#16⟩]

/-- `(W & mask) = match` (R51). -/
def OpcodeRow.matchesWord (r : OpcodeRow) (w : BitVec 16) : Bool :=
  (w &&& r.mask) == r.pattern

/-- The number of one-bits of a row's mask: "the row whose mask has more one-bits wins" (R52). -/
def OpcodeRow.maskBits (r : OpcodeRow) : Nat :=
  (List.range 16).countP r.mask.getLsbD

/-- The row of the opcode table an instruction belongs to, by its mnemonic. -/
def Instr.mnemonic : Instr → String
  | .interval .. => "INTERVAL"
  | .distance .. => "DISTANCE"
  | .speedUnrecognized .. => "SPEED_UNRECOGNIZED"
  | .voltage .. => "VOLTAGE"
  | .cat0 .. => "CAT0"
  | .cat3 .. => "CAT3"
  | .cat4 .. => "CAT4"
  | .cat5 .. => "CAT5"
  | .cat6 .. => "CAT6"
  | .cat7 .. => "CAT7"

/-- Category routing (42_demux.md R84) and, for C = 1 only, sub-type routing on all 8 bits of byte 1 (R85). -/
def routeType (x : Bool) (c : BitVec 3) (n : BitVec 4) (b1 : Byte) (tail : List Byte) : Instr :=
  match c.toNat with
  | 0 => .cat0 x n b1 tail
  | 1 =>
    if b1 = 0x81#8 then .interval x n tail
    else if b1 = 0x82#8 then .distance x n tail
    else .speedUnrecognized x n b1 tail
  | 2 => .voltage x n b1 tail
  | 3 => .cat3 x n b1 tail
  | 4 => .cat4 x n b1 tail
  | 5 => .cat5 x n b1 tail
  | 6 => .cat6 x n b1 tail
  | _ => .cat7 x n b1 tail

/-- Why a byte sequence begins with no frame. There is no illegal encoding (R56): a sequence is only ever too short. -/
inductive DecodeReject where
  /-- The sequence is empty, so there is no header. -/
  | noHeader
  /-- Fewer bytes are present than the header declares (40_assembler.md R70). -/
  | incompleteFrame
  deriving DecidableEq, Repr

/-- Reads the frame at the front of a byte sequence: its type with all its bits, and the bytes after it. The length
comes from the low nibble of the first byte and from nothing else (R58). -/
def decode : List Byte → Except DecodeReject (Instr × List Byte)
  | [] => .error .noHeader
  | [_] => .error .incompleteFrame
  | b0 :: b1 :: rest =>
    if (lengthCode b0).toNat ≤ rest.length then
      .ok (routeType (topBit b0) (category b0) (lengthCode b0) b1 (rest.take (lengthCode b0).toNat),
        rest.drop (lengthCode b0).toNat)
    else .error .incompleteFrame

/-- The bytes of a frame in arrival order: header, byte 1, the rest through the checksum (R31, R45). -/
def frameBytes (x : Bool) (c : BitVec 3) (n : BitVec 4) (b1 : Byte) (tail : List Byte) : List Byte :=
  headerByte x c n :: b1 :: tail

/-- The frame an instruction stands for, from the `encoding` column of the opcode table. -/
def encode : Instr → List Byte
  | .interval x n tail => frameBytes x 1#3 n 0x81#8 tail
  | .distance x n tail => frameBytes x 1#3 n 0x82#8 tail
  | .speedUnrecognized x n s tail => frameBytes x 1#3 n s tail
  | .voltage x n b tail => frameBytes x 2#3 n b tail
  | .cat0 x n b tail => frameBytes x 0#3 n b tail
  | .cat3 x n b tail => frameBytes x 3#3 n b tail
  | .cat4 x n b tail => frameBytes x 4#3 n b tail
  | .cat5 x n b tail => frameBytes x 5#3 n b tail
  | .cat6 x n b tail => frameBytes x 6#3 n b tail
  | .cat7 x n b tail => frameBytes x 7#3 n b tail

/-- `k` 16-bit words of a table number as stream bytes: word by word from bit 0 up, and in each word the byte of bits
15:8 first, since W's high byte is b0 (R51; log 18). -/
def tableBytes : Nat → Nat → List Byte
  | 0, _ => []
  | k + 1, v => BitVec.ofNat 8 (v / 256) :: BitVec.ofNat 8 v :: tableBytes k (v / 65536)

/-- The frame whose table bits are `w`: the header and byte 1 come from the row's 16 bits, and every byte after them is
zero; the header's own length code says how many bytes the frame has (log 18). -/
def frameOfTableWord (nbits w : Nat) : List Byte :=
  (tableBytes 9 (w % 2 ^ nbits)).take (frameLength (BitVec.ofNat 8 (w % 2 ^ nbits / 256)))

/-- The instruction the decoder reads from a table word. -/
def decodeTableWord (nbits w : Nat) : Option Instr :=
  match decode (frameOfTableWord nbits w) with
  | .ok (i, _) => some i
  | .error _ => none

end Sys2Proof
end

