-- ==== Sys2Proof/Config.lean ====
section
/-! DEFINITION. The implementation parameters of 00_scope.md R8 and R9. The block has no value that the manual leaves
undefined after an operation (93_implementation_defined.md section 1), so there is no opaque free value here.
BYTE = 8, LEN_CODE_BITS = 4 and TIME_UNIT = 1 ms are in the types and the units; TIME_WIDTH and MAX_CHUNK are unbounded
(natural numbers and lists: log 9). The numeral 60 is the spec's own, unaudited (N12): UNVERIFIED, unsafe, log 8. -/

namespace Sys2Proof.Config

/-- `T_IN`, the input (stale) timeout in ms: "a constant of the block, not a run-time setting" (R8, R9, R123). -/
def tIn : Nat := 60

/-- `MIN_FRAME`, the shortest frame: length code 0 (R8). -/
def minFrame : Nat := 2

/-- `MAX_FRAME`, the longest frame: length code 15 (R8). -/
def maxFrame : Nat := 17

/-- `RESIDUAL_MAX`, the largest buffer length between events (R8, 10_state.md R19). -/
def residualMax : Nat := 16

end Sys2Proof.Config
end

