-- ==== Sys2Proof/Machine/State.lean ====
section
/-! DEFINITION. What the machine holds (10_state.md R15, R26), the events it takes (60_exceptions.md R97), what it emits
(42_demux.md R91) and traces (60_exceptions.md R95), and the reasons a step can stop. Plain data throughout.
The block has no registers, no program counter, no status or control registers and no modes (10_state.md R16, R23 to
R25; 60_exceptions.md R104), so State has none. `buf` is the one storage area (20_memory.md R30): a byte sequence with
no address space behind it, so the list is its own canonical form (log 13). -/

namespace Sys2Proof.Machine

/-- An input event of the block (60_exceptions.md R97). -/
inductive Event where
  /-- FEED(now, chunk): `chunk` arrived at time `now` (40_assembler.md R63). -/
  | feed (now : Nat) (chunk : List Byte)
  /-- RESET (70_reset_and_hazards.md R109). -/
  | reset
  deriving DecidableEq, Repr

/-- The three recognised kinds of a dispatch event (42_demux.md R91). -/
inductive Kind where
  | interval
  | distance
  | voltage
  deriving DecidableEq, Repr

/-- A dispatch event: the kind, the length L and the whole frame, header through checksum (42_demux.md R91, D9). -/
structure DispatchEvent where
  kind : Kind
  len : Nat
  frame : List Byte
  deriving DecidableEq, Repr

/-- Why a candidate frame was dropped (60_exceptions.md R95). -/
inductive DropCause where
  | checksum
  | category
  | subtype
  deriving DecidableEq, Repr

/-- An entry of the model trace, which is no output port (00_scope.md R12, 60_exceptions.md R95, D8). -/
inductive TraceEvent where
  | drop (cause : DropCause) (frame : List Byte)
  | evict (count : Nat)
  deriving DecidableEq, Repr

structure State where
  /-- The ByteStreamBuffer; index 0 is the oldest unconsumed byte (10_state.md R15, R17; 20_memory.md R30). -/
  buf : List Byte
  /-- `last_t` while `last_v` = 1, and `none` while `last_v` = 0: R26 gives it "no value" at reset and R22 forbids
  reading it then. The Option is the spec's own state (10_state.md R15, R21, R22; log 5). -/
  lastT : Option Nat
  /-- VALIDATE's transient verdict on the candidate at the front of `buf`, given up when the candidate is consumed
  (41_validator.md R77, 10_state.md R23). It is false between events. DESIGN CHOICE, safe: log 3. -/
  ok : Bool
  /-- The model's mark of a refused FEED (10_state.md R28). -/
  refused : Bool
  /-- The events the host will present, in its order. The model's own field. DESIGN CHOICE, safe: log 1. -/
  inputs : List Event
  /-- The ordered output sequence, over the whole run (00_scope.md R12, 42_demux.md R92). DESIGN CHOICE, safe: log 7. -/
  out : List DispatchEvent
  /-- The model trace, over the whole run (00_scope.md R12). DESIGN CHOICE, safe: log 7. -/
  trace : List TraceEvent
  deriving DecidableEq, Repr

/-- `last_v`: a FEED has recorded a last-activity timestamp since reset (10_state.md R15, D6). -/
def State.lastV (s : State) : Bool :=
  s.lastT.isSome

/-- The start of a run: the reset state with `refused` = false (10_state.md R26, 70_reset_and_hazards.md R110). `ok`,
`inputs`, `out` and `trace` start empty. DESIGN CHOICE: logs 1, 3 and 7. -/
def State.reset : State :=
  { buf := [], lastT := none, ok := false, refused := false, inputs := [], out := [], trace := [] }

/-- Why the machine stops. The hardware stops on nothing (60_exceptions.md R94); these are the two reads that the spec
has a model fault on, and no event sequence from reset reaches either. -/
inductive Fault where
  /-- `last_t` read while `last_v` = 0 (10_state.md R22; I1). Raised by the stale test on a non-empty buffer that no
  FEED has stamped. Safe: log 5. -/
  | lastTUnwritten
  /-- A byte read at or past the length of a sequence (00_scope.md R11; I2). Raised by `memRead`, and by DISPATCH of a
  candidate shorter than its header declares. Safe: log 4. -/
  | indexPastEnd
  deriving DecidableEq, Repr

/-- Why an instruction is given no meaning. -/
inductive Refusal where
  /-- An opcode-table row that has no meaning yet. Raised by no arm of `exec` in this model. Safe. -/
  | notModelled (mnemonic : String)
  deriving DecidableEq, Repr

end Sys2Proof.Machine
end

