-- ==== Sys2Proof/Machine/Ops.lean ====
section
/-! DEFINITION. The named operations on the state (00_scope.md R12): MemRead, Append, Consume, Clear, emit, trace,
refuse, the timestamp's write and read, and RESET. There is no exception entry and no return to write here: the block
has neither (60_exceptions.md R94, R102, R103). -/

namespace Sys2Proof.Machine

/-- Runs `k` on the next state of an outcome; a stop stays a stop. -/
def andThen (o : Host.Outcome State Fault Refusal) (k : State → Host.Outcome State Fault Refusal) :
    Host.Outcome State Fault Refusal :=
  match o with
  | .next s => k s
  | .fault r => .fault r
  | .refused r => .refused r

/-- A read that may fault, followed by what uses its value. -/
def withRead {α : Type} (v : Except Fault α) (k : α → Host.Outcome State Fault Refusal) :
    Host.Outcome State Fault Refusal :=
  match v with
  | .ok a => k a
  | .error r => .fault r

/-- `MemRead(addr, n)`: `buf[addr .. addr+n-1]`, without side effect; a read at or past the length faults
(00_scope.md R11, R12; 20_memory.md R36). -/
def memRead (addr n : Nat) (s : State) : Except Fault (List Byte) :=
  if addr + n ≤ s.buf.length then .ok ((s.buf.drop addr).take n) else .error .indexPastEnd

/-- `last_t`, which faults while `last_v` = 0 (10_state.md R22). -/
def readLastT (s : State) : Except Fault Nat :=
  match s.lastT with
  | some t => .ok t
  | none => .error .lastTUnwritten

/-- `Append(chunk)`: after every byte already there, in the chunk's own order (40_assembler.md R66, 20_memory.md R31). -/
def append (chunk : List Byte) (s : State) : State :=
  { s with buf := s.buf ++ chunk }

/-- `Consume(n)`: the first `n` bytes leave, and the candidate's verdict is given up (40_assembler.md R68, 10_state.md
R23). -/
def consume (n : Nat) (s : State) : State :=
  { s with buf := s.buf.drop n, ok := false }

/-- `Clear()` (10_state.md R17). -/
def clear (s : State) : State :=
  { s with buf := [] }

/-- `last_t <- now ; last_v <- 1` (40_assembler.md R66). -/
def stamp (now : Nat) (s : State) : State :=
  { s with lastT := some now }

/-- `emit`: one dispatch event carrying the whole frame and its length (00_scope.md R12, 42_demux.md R91). -/
def emit (k : Kind) (f : List Byte) (s : State) : State :=
  { s with out := s.out ++ [{ kind := k, len := f.length, frame := f }] }

/-- `trace` (00_scope.md R12). -/
def record (e : TraceEvent) (s : State) : State :=
  { s with trace := s.trace ++ [e] }

/-- The silent drop of a candidate: nothing but a trace entry (60_exceptions.md R94, R95). -/
def dropCandidate (cause : DropCause) (f : List Byte) (s : State) : State :=
  record (.drop cause f) s

/-- `refuse`: the mark is set and nothing else changes (10_state.md R28, 40_assembler.md R64). -/
def markRefused (s : State) : State :=
  { s with refused := true }

/-- RESET: `buf <- []`, `last_v <- 0`, and `last_t` holds no value; `refused` stays, and nothing is emitted or traced
(70_reset_and_hazards.md R109). -/
def resetBlock (s : State) : State :=
  { s with buf := [], lastT := none }

/-- The host's events, presented after those already waiting (log 1). -/
def present (es : List Event) (s : State) : State :=
  { s with inputs := s.inputs ++ es }

end Sys2Proof.Machine
end

