-- ==== Sys2Proof/Machine/Speed.lean ====
section
/-! DEFINITION. The Speed category, C = 1: INTERVAL, DISTANCE and SPEED_UNRECOGNIZED (42_demux.md R85 to R87, R89). No
length is checked, no flag is written and nothing is raised. -/

namespace Sys2Proof.Machine

/-- INTERVAL: `emit Interval(f)` (42_demux.md R86). -/
def execInterval (x : Bool) (n : BitVec 4) (tail : List Byte) (s : State) : Host.Outcome State Fault Refusal :=
  .next (emit .interval (encode (.interval x n tail)) s)

/-- DISTANCE: `emit Distance(f)` (42_demux.md R87). -/
def execDistance (x : Bool) (n : BitVec 4) (tail : List Byte) (s : State) : Host.Outcome State Fault Refusal :=
  .next (emit .distance (encode (.distance x n tail)) s)

/-- SPEED_UNRECOGNIZED: `trace Drop(SUBTYPE, f)`, no output event and no error (42_demux.md R89). -/
def execSpeedUnrecognized (x : Bool) (n : BitVec 4) (sub : Byte) (tail : List Byte) (s : State) :
    Host.Outcome State Fault Refusal :=
  .next (dropCandidate .subtype (encode (.speedUnrecognized x n sub tail)) s)

end Sys2Proof.Machine
end

