-- ==== Sys2Proof/Machine/Unrecognized.lean ====
section
/-! DEFINITION. The unrecognised categories, C in {0, 3, 4, 5, 6, 7}: `trace Drop(CATEGORY, f)`, no output event, no error,
and byte 1 is not examined (42_demux.md R90). One definition a row, each over the shared drop. -/

namespace Sys2Proof.Machine

/-- CAT0 (42_demux.md R90). -/
def execCat0 (x : Bool) (n : BitVec 4) (b : Byte) (tail : List Byte) (s : State) : Host.Outcome State Fault Refusal :=
  .next (dropCandidate .category (encode (.cat0 x n b tail)) s)

/-- CAT3 (42_demux.md R90). -/
def execCat3 (x : Bool) (n : BitVec 4) (b : Byte) (tail : List Byte) (s : State) : Host.Outcome State Fault Refusal :=
  .next (dropCandidate .category (encode (.cat3 x n b tail)) s)

/-- CAT4 (42_demux.md R90). -/
def execCat4 (x : Bool) (n : BitVec 4) (b : Byte) (tail : List Byte) (s : State) : Host.Outcome State Fault Refusal :=
  .next (dropCandidate .category (encode (.cat4 x n b tail)) s)

/-- CAT5 (42_demux.md R90). -/
def execCat5 (x : Bool) (n : BitVec 4) (b : Byte) (tail : List Byte) (s : State) : Host.Outcome State Fault Refusal :=
  .next (dropCandidate .category (encode (.cat5 x n b tail)) s)

/-- CAT6 (42_demux.md R90). -/
def execCat6 (x : Bool) (n : BitVec 4) (b : Byte) (tail : List Byte) (s : State) : Host.Outcome State Fault Refusal :=
  .next (dropCandidate .category (encode (.cat6 x n b tail)) s)

/-- CAT7 (42_demux.md R90). -/
def execCat7 (x : Bool) (n : BitVec 4) (b : Byte) (tail : List Byte) (s : State) : Host.Outcome State Fault Refusal :=
  .next (dropCandidate .category (encode (.cat7 x n b tail)) s)

end Sys2Proof.Machine
end

