-- ==== Sys2Proof/Machine/Voltage.lean ====
section
/-! DEFINITION. The Voltage category, C = 2 (42_demux.md R88). -/

namespace Sys2Proof.Machine

/-- VOLTAGE: `emit Voltage(f)`; byte 1 is not examined and the length is not checked (42_demux.md R88). -/
def execVoltage (x : Bool) (n : BitVec 4) (b : Byte) (tail : List Byte) (s : State) :
    Host.Outcome State Fault Refusal :=
  .next (emit .voltage (encode (.voltage x n b tail)) s)

end Sys2Proof.Machine
end

