-- ==== Sys2Proof/Machine/Dispatch.lean ====
section
/-! DEFINITION. DISPATCH's choice of a meaning, one arm per message type (42_demux.md R83 to R90). -/

namespace Sys2Proof.Machine

def exec (i : Instr) (s : State) : Host.Outcome State Fault Refusal :=
  match i with
  | .interval x n tail => Sys2Proof.Machine.execInterval x n tail s
  | .distance x n tail => Sys2Proof.Machine.execDistance x n tail s
  | .speedUnrecognized x n sub tail => Sys2Proof.Machine.execSpeedUnrecognized x n sub tail s
  | .voltage x n b tail => Sys2Proof.Machine.execVoltage x n b tail s
  | .cat0 x n b tail => Sys2Proof.Machine.execCat0 x n b tail s
  | .cat3 x n b tail => Sys2Proof.Machine.execCat3 x n b tail s
  | .cat4 x n b tail => Sys2Proof.Machine.execCat4 x n b tail s
  | .cat5 x n b tail => Sys2Proof.Machine.execCat5 x n b tail s
  | .cat6 x n b tail => Sys2Proof.Machine.execCat6 x n b tail s
  | .cat7 x n b tail => Sys2Proof.Machine.execCat7 x n b tail s

end Sys2Proof.Machine
end

