-- ==== Sys2Proof/Machine/Flags.lean ====
section
/-! DEFINITION. The block's only flag computation: VALIDATE's 1-bit verdict (41_validator.md R77). No flag persists
between events (10_state.md R23). -/

namespace Sys2Proof.Machine

/-- `XOR7(s)`: the XOR of every byte masked with 0x7F, and 0 for the empty sequence (00_scope.md R11, 41_validator.md
R77). The accumulator's top bit is always 0. -/
def xor7 (f : List Byte) : Byte :=
  f.foldl (fun x b => x ^^^ (b &&& 0x7F#8)) 0#8

/-- VALIDATE(f): exactly `XOR7(f) = 0`, and nothing else (41_validator.md R77, R78). -/
def validate (f : List Byte) : Bool :=
  xor7 f == 0#8

/-- VALIDATE applied to the candidate: its verdict, held until the candidate is consumed (41_validator.md R77). -/
def judge (f : List Byte) (s : State) : State :=
  { s with ok := validate f }

end Sys2Proof.Machine
end

