-- ==== Sys2Proof/Machine/Operands.lean ====
section
/-! DEFINITION. What the extraction loop reads out of the buffer (40_assembler.md R67, R68), and the numeric codes of what
the block gives out (42_demux.md R91, 60_exceptions.md R95). -/

namespace Sys2Proof.Machine

/-- The loop condition: a header is present and so are the `L` bytes it declares (40_assembler.md R67, R70). -/
def candidateComplete (buf : List Byte) : Bool :=
  match buf with
  | [] => false
  | b0 :: _ => decide (frameLength b0 ≤ buf.length)

/-- The candidate slice `buf[0 .. L-1]`, read without side effect; reading `buf[0]` of an empty buffer, or past the end,
faults (40_assembler.md R68, 00_scope.md R11). -/
def candidate (s : State) : Except Fault (List Byte) :=
  match s.buf with
  | [] => .error .indexPastEnd
  | b0 :: _ => memRead 0 (frameLength b0) s

/-- The 2-bit kind encoding of decision D9: `00` is never emitted, and nothing may rely on the numbers (42_demux.md R91,
I17; log 15). -/
def Kind.code : Kind → BitVec 2
  | .interval => 0b01#2
  | .distance => 0b10#2
  | .voltage => 0b11#2

/-- The trace codes, the model's own vocabulary (60_exceptions.md R95, D8; log 15). -/
def TraceEvent.code : TraceEvent → Nat
  | .drop .checksum _ => 1
  | .drop .category _ => 2
  | .drop .subtype _ => 3
  | .evict _ => 4

end Sys2Proof.Machine
end

