-- ==== Sys2Proof/Machine/Assembler.lean ====
section
/-! DEFINITION. The Frame Assembler: FEED as 40_assembler.md R63 writes it, with VALIDATE and DISPATCH called once per
candidate, and the choice of what one step does. Each FEED and each RESET is one atomic step (20_memory.md R35; log 2). -/

namespace Sys2Proof.Machine

/-- The time precondition's failure: `last_v = 1 and now < last_t` (40_assembler.md R64). -/
def backward (now : Nat) (s : State) : Bool :=
  match s.lastT with
  | some t => decide (now < t)
  | none => false

/-- The stale test: `len(buf) > 0 and (now - last_t) > T_IN`. Only a non-empty buffer has `last_t` read, and the
comparison is strict (40_assembler.md R65; 10_state.md R21, R22). -/
def stale (now : Nat) (s : State) : Except Fault Bool :=
  if s.buf.isEmpty then .ok false
  else (readLastT s).map fun t => decide (now - t > Config.tIn)

/-- Stale eviction: every byte is discarded and `Evict(n)` is traced; an empty buffer is never evicted (40_assembler.md
R65). -/
def evictStale (now : Nat) (s : State) : Host.Outcome State Fault Refusal :=
  withRead (stale now s) fun isStale =>
    .next (if isStale then clear (record (.evict s.buf.length) s) else s)

/-- DISPATCH(f): the frame's type, then the type's meaning (42_demux.md R83). A frame of all its `L` bytes always has a
type (30_encoding.md R56); a shorter one has bytes missing, which faults (00_scope.md R11). -/
def dispatch (f : List Byte) (s : State) : Host.Outcome State Fault Refusal :=
  match decode f with
  | .ok (i, _) => exec i s
  | .error _ => .fault .indexPastEnd

/-- What follows VALIDATE for the candidate `f`: DISPATCH if the verdict is true, else the silent drop; then Consume,
"regardless of validity" (40_assembler.md R63, R68, R69; 41_validator.md R79). -/
def finishCandidate (f : List Byte) (s : State) : Host.Outcome State Fault Refusal :=
  andThen (if s.ok then dispatch f s else .next (dropCandidate .checksum f s))
    fun s' => .next (consume f.length s')

/-- One iteration of the loop: slice, VALIDATE, then DISPATCH or drop, then Consume (40_assembler.md R68, R69). -/
def takeCandidate (s : State) : Host.Outcome State Fault Refusal :=
  withRead (candidate s) fun f => finishCandidate f (judge f s)

/-- The loop with a bound on its iterations; it ends when no complete candidate is left (40_assembler.md R67, R70). -/
def extractBounded : Nat → State → Host.Outcome State Fault Refusal
  | 0, s => .next s
  | k + 1, s => if candidateComplete s.buf then andThen (takeCandidate s) (extractBounded k) else .next s

/-- The extraction loop. Every iteration consumes at least two bytes, so the buffer's length bounds it
(40_assembler.md R67). -/
def extract (s : State) : Host.Outcome State Fault Refusal :=
  extractBounded s.buf.length s

/-- FEED(now, chunk), in the order of 60_exceptions.md R100: time test, stale test, append and timestamp, loop
(40_assembler.md R63). A backward time marks `refused` and changes nothing else (R64; log 6). -/
def feed (now : Nat) (chunk : List Byte) (s : State) : Host.Outcome State Fault Refusal :=
  if backward now s then .next (markRefused s)
  else andThen (evictStale now s) fun s' => extract (stamp now (append chunk s'))

/-- An input event, taken whole (60_exceptions.md R97). -/
def takeEvent (e : Event) (s : State) : Host.Outcome State Fault Refusal :=
  match e with
  | .feed now chunk => feed now chunk s
  | .reset => .next (resetBlock s)

/-- The rest of a FEED whose front candidate VALIDATE has accepted: DISPATCH, Consume, and the loop to its end. No step
from a state between events leaves such a state (log 3). -/
def resumeFeed (s : State) : Host.Outcome State Fault Refusal :=
  withRead (candidate s) fun f => andThen (finishCandidate f s) extract

/-- One step: finish a FEED that stands at an accepted candidate, else take the next event the host presents, else idle
(20_memory.md R35, R37; 60_exceptions.md R101, R108; logs 1 to 3). -/
def advance (s : State) : Host.Outcome State Fault Refusal :=
  if s.ok then resumeFeed s
  else
    match s.inputs with
    | [] => .next s
    | e :: es => takeEvent e { s with inputs := es }

end Sys2Proof.Machine
end

