-- ==== Sys2Proof/Machine/Step.lean ====
section
/-! DEFINITION. One step of the machine, and where a table word is put so that the next step runs it. -/

namespace Sys2Proof.Machine

def step (s : State) : Host.Outcome State Fault Refusal :=
  advance s

/-- The table word's frame as the accepted candidate at index 0 of `buf`, the one position that sequences the block's work
(10_state.md R16). An instruction runs only after VALIDATE has accepted its frame (30_encoding.md R53), so the verdict is
set too: the next step is DISPATCH of exactly this frame. DESIGN CHOICE, safe: log 4. -/
def State.withFetchWord (s : State) (nbits w : Nat) : State :=
  { s with buf := frameOfTableWord nbits w, ok := true }

end Sys2Proof.Machine
end

