-- ==== Sys2Proof/Safety.lean ====
section
/-! DEFINITION. The terms claims are stated in: what a whole frame and a residual are, what the spec says one frame gives
(written from the masks of the opcode table, not through the decoder), how a byte sequence is cut into frames, and the
invariant of the states between events. A claim about a run takes `refused = false` as a premise (10_state.md R28). -/

namespace Sys2Proof.Machine

/-- A frame of exactly the length its header declares (30_encoding.md R45, R47). -/
def wholeFrame (f : List Byte) : Bool :=
  match f with
  | [] => false
  | b0 :: _ => f.length == frameLength b0

/-- What may stay in the buffer between events: nothing, or fewer bytes than its header declares (10_state.md R19). -/
def isResidual (b : List Byte) : Bool :=
  match b with
  | [] => true
  | b0 :: _ => decide (b.length < frameLength b0)

/-- The dispatch event of a whole frame, from R52's masks: only a frame with `XOR7 = 0` has a type (30_encoding.md R51 to
R53), INTERVAL and DISTANCE go before the rest of the Speed category, and VOLTAGE is the only other type with an event
(42_demux.md R86 to R88, R91). -/
def dispatchEventOf (f : List Byte) : Option DispatchEvent :=
  match f with
  | b0 :: b1 :: _ =>
    if xor7 f ≠ 0#8 then none
    else if decodeWord b0 b1 &&& 0x70FF#16 = 0x1081#16 then some { kind := .interval, len := f.length, frame := f }
    else if decodeWord b0 b1 &&& 0x70FF#16 = 0x1082#16 then some { kind := .distance, len := f.length, frame := f }
    else if decodeWord b0 b1 &&& 0x7000#16 = 0x2000#16 then some { kind := .voltage, len := f.length, frame := f }
    else none
  | _ => none

/-- The trace entry of a whole frame that gives no dispatch event (60_exceptions.md R95): the checksum is reported first,
then the sub-type of a Speed frame, else the category (R100). -/
def dropOf (f : List Byte) : Option TraceEvent :=
  match f with
  | b0 :: b1 :: _ =>
    if xor7 f ≠ 0#8 then some (.drop .checksum f)
    else if decodeWord b0 b1 &&& 0x70FF#16 = 0x1081#16 then none
    else if decodeWord b0 b1 &&& 0x70FF#16 = 0x1082#16 then none
    else if decodeWord b0 b1 &&& 0x7000#16 = 0x1000#16 then some (.drop .subtype f)
    else if decodeWord b0 b1 &&& 0x7000#16 = 0x2000#16 then none
    else some (.drop .category f)
  | _ => none

/-- `p` is the whole frames `fs`, in order, followed by the residual `r` (40_assembler.md R67, R68, R70). -/
def CutsInto (p : List Byte) (fs : List (List Byte)) (r : List Byte) : Prop :=
  p = fs.flatten ++ r ∧ (∀ f ∈ fs, wholeFrame f = true) ∧ isResidual r = true

/-- The FEED of `now` evicts: the buffer is not empty and more than `T_IN` has passed since the last FEED
(40_assembler.md R65). -/
def evictsAt (now : Nat) (s : State) : Bool :=
  match s.lastT with
  | some t => !s.buf.isEmpty && decide (now - t > Config.tIn)
  | none => false

/-- The buffered bytes that FEED's stale test keeps (40_assembler.md R65). -/
def keptBytes (now : Nat) (s : State) : List Byte :=
  if evictsAt now s then [] else s.buf

/-- What FEED's stale test traces: one `Evict` of every buffered byte, or nothing (40_assembler.md R65, 60_exceptions.md
R95). -/
def evictTrace (now : Nat) (s : State) : List TraceEvent :=
  if evictsAt now s then [.evict s.buf.length] else []

/-- Bit `j` of byte `i` flipped (41_validator.md R80). -/
def flipBit (f : List Byte) (i j : Nat) : List Byte :=
  f.modify i fun b => b ^^^ (1#8 <<< j)

/-- A trace entry that R95's table allows. -/
def soundTrace (e : TraceEvent) : Prop :=
  match e with
  | .drop _ f => wholeFrame f = true ∧ dropOf f = some e
  | .evict n => 1 ≤ n ∧ n ≤ Config.residualMax

/-- A dispatch event that R91 and R93 allow: a whole frame, valid, of the event's own kind and length. -/
def soundEvent (e : DispatchEvent) : Prop :=
  wholeFrame e.frame = true ∧ dispatchEventOf e.frame = some e

/-- The states between events: the verdict is given up (10_state.md R23), the buffer is a residual (R19), a non-empty
buffer has been stamped (R20), and everything given out is sound (42_demux.md R93, 60_exceptions.md R95). -/
structure State.Inv (s : State) : Prop where
  verdictGivenUp : s.ok = false
  bufferResidual : isResidual s.buf = true
  bufferStamped : s.buf ≠ [] → s.lastV = true
  eventsSound : ∀ e ∈ s.out, soundEvent e
  traceSound : ∀ e ∈ s.trace, soundTrace e

/-- `k` steps, one after another. -/
def runSteps : Nat → State → Host.Outcome State Fault Refusal
  | 0, s => .next s
  | k + 1, s => andThen (step s) (runSteps k)

/-- The FEED of `now` is not refused (40_assembler.md R64): no timestamp is held, or `now` is not before it. -/
def onTime (now : Nat) (s : State) : Prop :=
  ∀ t, s.lastT = some t → t ≤ now

/-- The machine stands between events and the next one the host presents is `e`, with `rest` after it (60_exceptions.md
R101; log 1). -/
def awaits (e : Event) (rest : List Event) (s : State) : Prop :=
  s.ok = false ∧ s.inputs = e :: rest

end Sys2Proof.Machine
end

