-- ==== Sys2Proof/Machine/Realisation.lean ====
section
/-! DEFINITION. The permitted hardware realisation of 10_state.md R29: byte-serial intake into a small buffer, a
saturating idle counter in place of the timestamp, and both input events of the block over them (60_exceptions.md R97). It
is no part of the machine's step: statements say that it and the machine agree (log 17). -/

namespace Sys2Proof.Machine

/-- The realisation's state. `buf` stands for the 17 byte cells and their count. -/
structure Realised where
  buf : List Byte
  lastV : Bool
  idle : Nat
  out : List DispatchEvent
  deriving DecidableEq, Repr

/-- The realisation after reset; the counter's value is a DESIGN CHOICE, and no output depends on it (log 17). -/
def Realised.reset : Realised :=
  { buf := [], lastV := false, idle := 0, out := [] }

/-- One `TIME_UNIT` passes: the counter counts up and saturates at `T_IN + 1` (R29). -/
def Realised.tick (h : Realised) : Realised :=
  { h with idle := min (h.idle + 1) (Config.tIn + 1) }

/-- One byte is taken in; the byte that completes a frame has the frame judged, its event emitted if it has one, and the
frame consumed (40_assembler.md R73). -/
def Realised.intakeByte (h : Realised) (b : Byte) : Realised :=
  if isResidual (h.buf ++ [b]) then { h with buf := h.buf ++ [b] }
  else { h with buf := [], out := h.out ++ (dispatchEventOf (h.buf ++ [b])).toList }

/-- The stale test `buf != [] and idle > T_IN`, made once, before the chunk's first byte (R29). -/
def Realised.dropStale (h : Realised) : Realised :=
  if h.buf ≠ [] ∧ h.idle > Config.tIn then { h with buf := [] } else h

/-- The end of a FEED: a timestamp is held, and the counter restarts at 0 (R29). -/
def Realised.restart (h : Realised) : Realised :=
  { h with lastV := true, idle := 0 }

/-- A chunk: the stale test, then the bytes one by one, then the counter's restart (R29, 40_assembler.md R73). -/
def Realised.feed (chunk : List Byte) (h : Realised) : Realised :=
  (chunk.foldl Realised.intakeByte h.dropStale).restart

/-- RESET: the buffer is emptied and no timestamp is held (70_reset_and_hazards.md R109). The outputs stay, and so does the
counter, which is not read again before the next FEED restarts it, because the buffer is empty till then (10_state.md
R20, R29; log 17). -/
def Realised.takeReset (h : Realised) : Realised :=
  { h with buf := [], lastV := false }

/-- The realisation `h` stands for the machine's state `s` at the time `now`: the same buffer, validity and outputs, and
the counter is the time since the last FEED, saturated. -/
def Realises (now : Nat) (h : Realised) (s : State) : Prop :=
  h.buf = s.buf ∧ h.lastV = s.lastV ∧ h.out = s.out ∧
    ∀ t, s.lastT = some t → t ≤ now ∧ h.idle = min (now - t) (Config.tIn + 1)

end Sys2Proof.Machine
end

