-- ==== Sys2Proof/Certificates/Slice0/Obligations.lean ====
section
/-! DEFINITION. The statements, in the spec's order: encoding, VALIDATE, DISPATCH and the message types, the step and FEED,
RESET and the invariant, the permitted realisation. -/

open Sys2Proof Sys2Proof.Machine

/-! Encoding (30_encoding.md). -/

/-- Every well-formed instruction of every family, with every operand, is read back from its own bytes, whatever
follows them. -/
def Obligations.DecodeOfEncodeGivesTheInstructionBack : Prop :=
  ∀ (i : Instr) (rest : List Byte), wellFormed i = true → decode (encode i ++ rest) = .ok (i, rest)

/-- No bit of the stream is lost by decoding, and what is decoded is well formed. -/
def Obligations.EncodeOfDecodeGivesTheBytesBack : Prop :=
  ∀ (bs rest : List Byte) (i : Instr), decode bs = .ok (i, rest) → encode i ++ rest = bs ∧ wellFormed i = true

/-- R52: the decoded type's own row matches W, and every other row that matches W has fewer mask bits. The word W is
the spec's own decision D1. -/
def Obligations.DecodedTypeIsTheWinningOpcodeRow : Prop :=
  ∀ (b0 b1 : Byte) (bs rest : List Byte) (i : Instr), decode (b0 :: b1 :: bs) = .ok (i, rest) →
    ∃ r ∈ opcodeTable, r.mnemonic = i.mnemonic ∧ r.matchesWord (decodeWord b0 b1) = true ∧
      ∀ r' ∈ opcodeTable, r'.matchesWord (decodeWord b0 b1) = true → r' ≠ r → r'.maskBits < r.maskBits

/-- R56, R58: a byte sequence is rejected exactly when it is shorter than its header declares, or has no header. -/
def Obligations.DecodeRejectsExactlyShortSequences : Prop :=
  ∀ (bs : List Byte) (why : DecodeReject), decode bs = .error why ↔
    (bs = [] ∧ why = .noHeader) ∨
      ∃ b0 tl, bs = b0 :: tl ∧ bs.length < frameLength b0 ∧ why = .incompleteFrame

/-- Frames of 30_encoding.md R62 and 95_test_vectors.md 2.3, one or more a family, decode to what they stand for. -/
def Obligations.SampleFramesDecodeAsTheSpecSays : Prop :=
  decode [0x14#8, 0x81#8, 0x00#8, 0x07#8, 0x68#8, 0x7A#8] =
      .ok (.interval false 4#4 [0x00#8, 0x07#8, 0x68#8, 0x7A#8], []) ∧
    decode [0x96#8, 0x82#8, 0x00#8, 0x3A#8, 0x6F#8, 0x1A#8, 0x15#8, 0x4E#8] =
      .ok (.distance true 6#4 [0x00#8, 0x3A#8, 0x6F#8, 0x1A#8, 0x15#8, 0x4E#8], []) ∧
    decode [0x12#8, 0x01#8, 0x00#8, 0x13#8] = .ok (.speedUnrecognized false 2#4 0x01#8 [0x00#8, 0x13#8], []) ∧
    decode [0x22#8, 0x05#8, 0x3C#8, 0x1B#8] = .ok (.voltage false 2#4 0x05#8 [0x3C#8, 0x1B#8], []) ∧
    decode [0x00#8, 0x00#8] = .ok (.cat0 false 0#4 0x00#8 [], []) ∧
    decode [0x72#8, 0x81#8, 0x00#8, 0x73#8] = .ok (.cat7 false 2#4 0x81#8 [0x00#8, 0x73#8], [])

/-- R51: where C, N, X and S lie in the decode word, and when a row matches it. The word is the spec's own decision
D1. -/
def Obligations.DecodeWordHoldsTheHeaderFields : Prop :=
  ∀ b0 b1 : Byte,
    decodeWord b0 b1 = (b0.setWidth 16 <<< 8) ||| b1.setWidth 16 ∧
    (decodeWord b0 b1).extractLsb' 12 3 = category b0 ∧
    (decodeWord b0 b1).extractLsb' 8 4 = lengthCode b0 ∧
    (decodeWord b0 b1).getLsbD 15 = topBit b0 ∧
    (decodeWord b0 b1).extractLsb' 0 8 = b1 ∧
    ∀ r : OpcodeRow, r.matchesWord (decodeWord b0 b1) = true ↔ decodeWord b0 b1 &&& r.mask = r.pattern

/-- R47: the length is the low nibble plus 2, lies in 2..17, and is all that decides how many bytes a frame takes. The
spec derives R47 from R45. -/
def Obligations.FrameLengthComesFromTheLowNibbleAlone : Prop :=
  ∀ b0 : Byte, frameLength b0 = (b0 &&& 0x0F#8).toNat + 2 ∧
    Config.minFrame ≤ frameLength b0 ∧ frameLength b0 ≤ Config.maxFrame ∧
    ∀ (bs rest : List Byte) (i : Instr), decode (b0 :: bs) = .ok (i, rest) →
      (encode i).length = frameLength b0 ∧ (b0 :: bs).length = frameLength b0 + rest.length

/-! VALIDATE (41_validator.md). -/

/-- R77, R78: a frame is accepted exactly when its XOR7 is zero, that is, when each of the bits 6:0 is set in an even
number of its bytes, whatever its length, category and bits 7. -/
def Obligations.ValidateIsEvenParityOfTheLowSevenBits : Prop :=
  ∀ f : List Byte, (validate f = true ↔ xor7 f = 0#8) ∧
    (validate f = true ↔ ∀ j < 7, Even (f.countP fun b => b.getLsbD j))

/-- R48: the checksum's low 7 bits must equal XOR7 of the bytes before it; its bit 7 is not covered. The spec derives
R48's later sentences from its first. -/
def Obligations.ChecksumByteClosesTheFrame : Prop :=
  ∀ (bs : List Byte) (c : Byte),
    (validate (bs ++ [c]) = true ↔ xor7 (bs ++ [c]) = 0#8) ∧
    (validate (bs ++ [c]) = true ↔ c &&& 0x7F#8 = xor7 bs) ∧
    validate (bs ++ [c ^^^ 0x80#8]) = validate (bs ++ [c])

/-- R80: what one flipped bit does to a valid frame. The spec derives R80 from R77. -/
def Obligations.SingleBitFlipIsCaughtExceptBitSeven : Prop :=
  ∀ (f : List Byte) (i j : Nat), wholeFrame f = true → validate f = true → i < f.length → j < 8 →
    (¬(i = 0 ∧ j < 4) → wholeFrame (flipBit f i j) = true ∧
      (j ≤ 6 → xor7 (flipBit f i j) = 1#8 <<< j ∧ validate (flipBit f i j) = false) ∧
      (j = 7 → validate (flipBit f i j) = true)) ∧
    (i = 0 ∧ j < 4 → wholeFrame (flipBit f i j) = false)

/-- R81: several flipped bits are caught exactly when some bit j <= 6 is flipped in an odd number of bytes, and a
reordering never is. The spec derives R81 from R77. -/
def Obligations.EvenFlipsAndReorderingsAreNotDetected : Prop :=
  (∀ f g : List Byte, f.length = g.length → validate f = true →
    (validate g = true ↔
      ∀ j < 7, Even ((List.zipWith (fun a b => a ^^^ b) f g).countP fun d => d.getLsbD j))) ∧
  ∀ f g : List Byte, f.Perm g → validate g = validate f

/-- R54: header bit 7 changes no length, no verdict and no type; only the dispatched frame shows it. The spec derives
R54 from R46 to R49 and R78. -/
def Obligations.HeaderBitSevenIsReadByNothing : Prop :=
  ∀ (b0 : Byte) (r : List Byte) (s : State), wholeFrame (b0 :: r) = true →
    frameLength (b0 ^^^ 0x80#8) = frameLength b0 ∧ category (b0 ^^^ 0x80#8) = category b0 ∧
    validate ((b0 ^^^ 0x80#8) :: r) = validate (b0 :: r) ∧
    ((∃ k : Kind, dispatch (b0 :: r) s = .next (emit k (b0 :: r) s) ∧
        dispatch ((b0 ^^^ 0x80#8) :: r) s = .next (emit k ((b0 ^^^ 0x80#8) :: r) s)) ∨
      ∃ c : DropCause, dispatch (b0 :: r) s = .next (dropCandidate c (b0 :: r) s) ∧
        dispatch ((b0 ^^^ 0x80#8) :: r) s = .next (dropCandidate c ((b0 ^^^ 0x80#8) :: r) s))

/-! DISPATCH and the message types (42_demux.md). Each completion statement gives the whole next state, so it is also the
instruction's frame: buffer, timestamp, verdict, refused mark, inputs and the other sequence are as before. -/

/-- R86: INTERVAL emits the whole frame with its length and changes nothing else; a valid one has at least 3 bytes.
The last clause is R86's own inference from R77 and R47, and that exec is defined on a frame VALIDATE has not accepted is
the model's choice: log 14. -/
def Obligations.IntervalEmitsItsWholeFrame : Prop :=
  ∀ (x : Bool) (n : BitVec 4) (tail : List Byte) (s : State), wellFormed (.interval x n tail) = true →
    exec (.interval x n tail) s = .next { s with out := s.out ++
      [{ kind := .interval, len := n.toNat + 2, frame := headerByte x 1#3 n :: 0x81#8 :: tail }] } ∧
    decodeWord (headerByte x 1#3 n) 0x81#8 &&& 0x70FF#16 = 0x1081#16 ∧
    (validate (headerByte x 1#3 n :: 0x81#8 :: tail) = true → 3 ≤ n.toNat + 2)

/-- R87: DISTANCE emits the whole frame with its length and changes nothing else; a valid one has at least 3 bytes.
The last clause is R87's own inference from R77 and R47, and that exec is defined on a frame VALIDATE has not accepted is
the model's choice: log 14. -/
def Obligations.DistanceEmitsItsWholeFrame : Prop :=
  ∀ (x : Bool) (n : BitVec 4) (tail : List Byte) (s : State), wellFormed (.distance x n tail) = true →
    exec (.distance x n tail) s = .next { s with out := s.out ++
      [{ kind := .distance, len := n.toNat + 2, frame := headerByte x 1#3 n :: 0x82#8 :: tail }] } ∧
    decodeWord (headerByte x 1#3 n) 0x82#8 &&& 0x70FF#16 = 0x1082#16 ∧
    (validate (headerByte x 1#3 n :: 0x82#8 :: tail) = true → 3 ≤ n.toNat + 2)

/-- R88: VOLTAGE emits the whole frame with its length, whatever byte 1 is, and changes nothing else. -/
def Obligations.VoltageEmitsItsWholeFrame : Prop :=
  ∀ (x : Bool) (n : BitVec 4) (b : Byte) (tail : List Byte) (s : State), wellFormed (.voltage x n b tail) = true →
    exec (.voltage x n b tail) s = .next { s with out := s.out ++
      [{ kind := .voltage, len := n.toNat + 2, frame := headerByte x 2#3 n :: b :: tail }] } ∧
    decodeWord (headerByte x 2#3 n) b &&& 0x7000#16 = 0x2000#16

/-- R89: SPEED_UNRECOGNIZED gives no output event: the drop is traced and nothing else changes; the four valid 2-byte
Speed frames are all of this type. The trace entry is the spec's own decision D8. -/
def Obligations.SpeedUnrecognizedIsDroppedSilently : Prop :=
  (∀ (x : Bool) (n : BitVec 4) (sub : Byte) (tail : List Byte) (s : State),
    wellFormed (.speedUnrecognized x n sub tail) = true →
    exec (.speedUnrecognized x n sub tail) s = .next { s with trace := s.trace ++
      [.drop .subtype (headerByte x 1#3 n :: sub :: tail)] } ∧
    decodeWord (headerByte x 1#3 n) sub &&& 0x7000#16 = 0x1000#16 ∧ sub ≠ 0x81#8 ∧ sub ≠ 0x82#8) ∧
  ∀ (x : Bool) (b1 : Byte), validate [headerByte x 1#3 0#4, b1] = true →
    (b1 = 0x10#8 ∨ b1 = 0x90#8) ∧
    decode [headerByte x 1#3 0#4, b1] = .ok (.speedUnrecognized x 0#4 b1 [], [])

/-- R90: CAT0, CAT3, CAT4, CAT5, CAT6 and CAT7 give no output event, whatever byte 1 is: the drop is traced and
nothing else changes. The trace entries are the spec's own decision D8. -/
def Obligations.UnrecognizedCategoriesAreDroppedSilently : Prop :=
  ∀ (x : Bool) (n : BitVec 4) (b : Byte) (tail : List Byte) (s : State), tailFits n tail = true →
    (exec (.cat0 x n b tail) s =
        .next { s with trace := s.trace ++ [.drop .category (headerByte x 0#3 n :: b :: tail)] } ∧
      decodeWord (headerByte x 0#3 n) b &&& 0x7000#16 = 0x0000#16) ∧
    (exec (.cat3 x n b tail) s =
        .next { s with trace := s.trace ++ [.drop .category (headerByte x 3#3 n :: b :: tail)] } ∧
      decodeWord (headerByte x 3#3 n) b &&& 0x7000#16 = 0x3000#16) ∧
    (exec (.cat4 x n b tail) s =
        .next { s with trace := s.trace ++ [.drop .category (headerByte x 4#3 n :: b :: tail)] } ∧
      decodeWord (headerByte x 4#3 n) b &&& 0x7000#16 = 0x4000#16) ∧
    (exec (.cat5 x n b tail) s =
        .next { s with trace := s.trace ++ [.drop .category (headerByte x 5#3 n :: b :: tail)] } ∧
      decodeWord (headerByte x 5#3 n) b &&& 0x7000#16 = 0x5000#16) ∧
    (exec (.cat6 x n b tail) s =
        .next { s with trace := s.trace ++ [.drop .category (headerByte x 6#3 n :: b :: tail)] } ∧
      decodeWord (headerByte x 6#3 n) b &&& 0x7000#16 = 0x6000#16) ∧
    (exec (.cat7 x n b tail) s =
        .next { s with trace := s.trace ++ [.drop .category (headerByte x 7#3 n :: b :: tail)] } ∧
      decodeWord (headerByte x 7#3 n) b &&& 0x7000#16 = 0x7000#16)

/-- R23, R83, R95: whatever message type runs, no byte of the buffer, no timestamp, no verdict, no mark and no input
changes, and exactly one record is appended: a dispatch event or a trace entry. -/
def Obligations.MessageTypesOnlyAppendOneRecord : Prop :=
  ∀ (i : Instr) (s t : State), exec i s = .next t →
    (∀ addr n, memRead addr n t = memRead addr n s) ∧ t.buf.length = s.buf.length ∧
    t.lastT = s.lastT ∧ t.ok = s.ok ∧ t.refused = s.refused ∧ t.inputs = s.inputs ∧
    ((∃ e, t.out = s.out ++ [e] ∧ t.trace = s.trace) ∨ ∃ d, t.trace = s.trace ++ [d] ∧ t.out = s.out)

/-- R83 to R85: DISPATCH of a valid whole frame does what the masks of R52 say, and nothing else. -/
def Obligations.DispatchFollowsTheTypeMap : Prop :=
  ∀ (f : List Byte) (s : State), wholeFrame f = true → validate f = true →
    (∃ e, dispatchEventOf f = some e ∧ dispatch f s = .next { s with out := s.out ++ [e] }) ∨
      dispatchEventOf f = none ∧ ∃ d, dropOf f = some d ∧ dispatch f s = .next { s with trace := s.trace ++ [d] }

/-- R95, R100, R68, R69: VALIDATE, then DISPATCH or the drop, then Consume, append exactly one record for a candidate: a
dispatch event of its frame, or a drop of it whose cause and code are 1 exactly when its checksum fails, 2 exactly when it
is valid and its category C is none of 1 and 2, and 3 exactly when it is valid, C = 1 and byte 1 is neither 0x81 nor 0x82;
nothing else changes but the buffer and the verdict. The trace and its codes are the spec's own decision D8: log 15. -/
def Obligations.EachCandidateGivesOneEventOrOneDrop : Prop :=
  ∀ (f tl : List Byte) (b0 b1 : Byte) (s : State), f = b0 :: b1 :: tl → wholeFrame f = true →
    ∃ es ds, finishCandidate f (judge f s) =
        .next { s with buf := s.buf.drop f.length, ok := false, out := s.out ++ es, trace := s.trace ++ ds } ∧
      es.length + ds.length = 1 ∧ (∀ e ∈ es, e.frame = f ∧ e.len = f.length) ∧ (∀ d ∈ ds, ∃ c, d = .drop c f) ∧
      (ds.map TraceEvent.code = [1] ↔ xor7 f ≠ 0#8) ∧ (ds = [.drop .checksum f] ↔ xor7 f ≠ 0#8) ∧
      (ds.map TraceEvent.code = [2] ↔
        xor7 f = 0#8 ∧ (b0 >>> 4) &&& 0x07#8 ∈ [0#8, 3#8, 4#8, 5#8, 6#8, 7#8]) ∧
      (ds = [.drop .category f] ↔ xor7 f = 0#8 ∧ (b0 >>> 4) &&& 0x07#8 ∈ [0#8, 3#8, 4#8, 5#8, 6#8, 7#8]) ∧
      (ds.map TraceEvent.code = [3] ↔
        xor7 f = 0#8 ∧ (b0 >>> 4) &&& 0x07#8 = 1#8 ∧ b1 ≠ 0x81#8 ∧ b1 ≠ 0x82#8) ∧
      (ds = [.drop .subtype f] ↔ xor7 f = 0#8 ∧ (b0 >>> 4) &&& 0x07#8 = 1#8 ∧ b1 ≠ 0x81#8 ∧ b1 ≠ 0x82#8)

/-! The step and FEED (40_assembler.md). -/

/-- A step runs the decoded instruction: where VALIDATE has accepted the frame at the front of the buffer, the step is
exec of the instruction it decodes to, then Consume, then the loop; and where the loop finds a valid frame at the
front, it runs exec of it in the same way, with the verdict set. The verdict as a field of the state is the model's
choice: log 3. -/
def Obligations.StepRunsTheDecodedInstruction : Prop :=
  (∀ (s : State) (f : List Byte) (i : Instr), s.ok = true → candidate s = .ok f → decode f = .ok (i, []) →
    step s = andThen (exec i s) fun t => extract (consume f.length t)) ∧
  ∀ (s : State) (f : List Byte) (i : Instr), candidate s = .ok f → validate f = true → decode f = .ok (i, []) →
    extract s = andThen (exec i { s with ok := true }) fun t => extract (consume f.length t)

/-- R65, R66, R100: a FEED that is not refused first makes the stale test, then appends and stamps, then runs the
loop. The spec's own decisions D2, D3, D5 and D8 stand behind it, and the events as a list in the state are the
model's choice: log 1. -/
def Obligations.FeedTestsThenAppendsThenExtracts : Prop :=
  ∀ (s : State) (now : Nat) (chunk : List Byte) (rest : List Event), awaits (.feed now chunk) rest s → onTime now s →
    (s.buf ≠ [] → s.lastV = true) →
    step s = extract { s with
      buf := keptBytes now s ++ chunk, lastT := some now, inputs := rest, trace := s.trace ++ evictTrace now s }

/-- R68, R79: a candidate that fails the checksum gives no event; all its bytes leave, and the next header is the byte
after it. The trace entry is the spec's own decision D8. -/
def Obligations.InvalidCandidateIsDroppedWhole : Prop :=
  ∀ (s : State) (f : List Byte), candidate s = .ok f → validate f = false →
    extract s = extract { s with
      buf := s.buf.drop f.length, ok := false, trace := s.trace ++ [.drop .checksum f] }

/-- R70, R65, R66: a partial frame stays; nothing is validated, dispatched or dropped for being short. Which bytes are kept
and what is traced before that is R65, with the spec's own decisions D2, D3 and D8; the timestamp, an empty chunk's too, is
R66, with its decision D5: log 10. The events as a list in the state are the model's choice: log 1. -/
def Obligations.PartialFrameWaits : Prop :=
  ∀ (s : State) (now : Nat) (chunk : List Byte) (rest : List Event), awaits (.feed now chunk) rest s → onTime now s →
    (s.buf ≠ [] → s.lastV = true) → isResidual (keptBytes now s ++ chunk) = true →
    step s = .next { s with
      buf := keptBytes now s ++ chunk, lastT := some now, inputs := rest, trace := s.trace ++ evictTrace now s }

/-- R64: a FEED earlier than the last one changes nothing but the refused mark. The refusal is the spec's own decision
D4, and a next state with the event taken is the model's reading of it: log 6. -/
def Obligations.BackwardFeedIsRefused : Prop :=
  ∀ (s : State) (now t : Nat) (chunk : List Byte) (rest : List Event), awaits (.feed now chunk) rest s →
    s.lastT = some t → now < t → step s = .next { s with inputs := rest, refused := true }

/-- R65, R76, R120: past `T_IN` the step is the step from an emptied buffer with one eviction traced; up to `T_IN` it
is the step in which the buffered bytes arrive before the chunk; an empty buffer is never evicted. The unit, the one
sample of time and the trace entry are the spec's own decisions D2, D3 and D8. -/
def Obligations.StaleTestIsStrictAndMadeOncePerFeed : Prop :=
  ∀ (s : State) (now t : Nat) (chunk : List Byte) (rest : List Event), awaits (.feed now chunk) rest s →
    s.lastT = some t → t ≤ now →
    (s.buf ≠ [] → now - t > 60 →
      step s = step { s with buf := [], trace := s.trace ++ [.evict s.buf.length] }) ∧
    (now - t ≤ 60 → step s = step { s with buf := [], inputs := .feed now (s.buf ++ chunk) :: rest }) ∧
    (s.buf = [] ∨ now - t ≤ 60 → ∀ u, step s = .next u →
      ∃ ds, u.trace = s.trace ++ ds ∧ ∀ d ∈ ds, ∃ c f, d = TraceEvent.drop c f)

/-- R27, R76: two states that differ only in what they have buffered, and that both evict or hold nothing, give the
same outputs and the same buffer after the FEED. The spec derives R27 and R76 from R65 to R67. -/
def Obligations.EvictedBytesNeverShowInTheOutputs : Prop :=
  ∀ (s s' : State) (now : Nat) (chunk : List Byte) (rest : List Event), awaits (.feed now chunk) rest s →
    awaits (.feed now chunk) rest s' → s.out = s'.out → onTime now s → onTime now s' →
    (s.buf = [] ∨ evictsAt now s = true) → (s'.buf = [] ∨ evictsAt now s' = true) →
    ∃ t t', step s = .next t ∧ step s' = .next t' ∧ t.out = t'.out ∧ t.buf = t'.buf ∧ t.lastT = t'.lastT

/-- R65 to R72, R91, R92: however the kept bytes and the chunk cut into whole frames and a residual, the
step gives exactly the frames' dispatch events, in order, keeps exactly the residual, and traces the eviction and then
the frames' drops. The spec's own decisions D2, D3, D5, D8 and D9 stand behind it. -/
def Obligations.FeedDispatchesExactlyItsFrames : Prop :=
  ∀ (s : State) (now : Nat) (chunk : List Byte) (rest : List Event) (fs : List (List Byte)) (r : List Byte),
    awaits (.feed now chunk) rest s → onTime now s → (s.buf ≠ [] → s.lastV = true) →
    CutsInto (keptBytes now s ++ chunk) fs r →
    step s = .next { s with
      buf := r, lastT := some now, inputs := rest, out := s.out ++ fs.filterMap dispatchEventOf,
      trace := s.trace ++ evictTrace now s ++ fs.filterMap dropOf }

/-- R58, R67: every byte sequence cuts into whole frames and a residual in exactly one way. -/
def Obligations.EveryByteSequenceCutsInOneWay : Prop :=
  ∀ p : List Byte, ∃ fs r, CutsInto p fs r ∧ ∀ fs' r', CutsInto p fs' r' → fs' = fs ∧ r' = r

/-- R94: from a state between events nothing stops the machine, whatever the host presents. -/
def Obligations.NoEventStopsTheMachine : Prop :=
  ∀ s : State, s.Inv → ∃ t, step s = .next t

/-- R22: the stale test of a non-empty buffer that no FEED has stamped reads `last_t` while `last_v` = 0, which
faults. That reading faults is the spec's own treatment I1. -/
def Obligations.UnstampedBufferFaults : Prop :=
  ∀ (s : State) (now : Nat) (chunk : List Byte) (rest : List Event), awaits (.feed now chunk) rest s →
    s.buf ≠ [] → s.lastV = false → step s = .fault .lastTUnwritten

/-- R71: an empty chunk runs the stale test and writes the timestamp; it emits nothing and drops nothing. That empty
FEEDs count is the spec's own decision D5: log 10. -/
def Obligations.EmptyFeedOnlyEvictsAndStamps : Prop :=
  ∀ (s : State) (now : Nat) (rest : List Event), s.Inv → awaits (.feed now []) rest s → onTime now s →
    step s = .next { s with
      buf := keptBytes now s, lastT := some now, inputs := rest, trace := s.trace ++ evictTrace now s }

/-- R73: from any state between events, a chunk taken whole and the same chunk in two parts at the same time give the
same outcome: buffer, timestamp, outputs, trace and all. The spec derives R73 from R65 to R68. -/
def Obligations.SplittingAChunkChangesNothing : Prop :=
  ∀ (s : State) (now : Nat) (c1 c2 : List Byte) (rest : List Event), awaits (.feed now (c1 ++ c2)) rest s →
    andThen (step { s with inputs := .feed now c1 :: .feed now c2 :: rest }) step = step s

/-- R74: a byte sequence in any number of chunks, at most `T_IN` apart, gives what it gives whole at the first chunk's
time; only the timestamp differs. The spec derives R74 from R65 and R73. -/
def Obligations.FragmentationWithinTheTimeoutIsInvisible : Prop :=
  ∀ (s : State) (t1 : Nat) (c1 : List Byte) (parts : List (Nat × List Byte)) (rest : List Event), s.ok = false →
    s.inputs = .feed t1 c1 :: (parts.map fun p => Event.feed p.1 p.2) ++ rest → onTime t1 s →
    (s.buf ≠ [] → s.lastV = true) →
    List.IsChain (fun a b => a ≤ b ∧ b - a ≤ 60) (t1 :: parts.map Prod.fst) →
    ∃ v, step { s with inputs := .feed t1 (c1 ++ parts.flatMap Prod.snd) :: rest } = .next v ∧
      runSteps (parts.length + 1) s =
        .next { v with lastT := some ((t1 :: parts.map Prod.fst).getLast (List.cons_ne_nil _ _)) }

/-- R75: clearing the buffer eagerly, at any earlier time at which it is already stale, changes no FEED's outcome. The
spec derives R75 from R65 and R18. -/
def Obligations.EagerEvictionGivesTheSameFeed : Prop :=
  ∀ (s s' : State) (early now : Nat) (chunk : List Byte), early ≤ now → evictStale early s = .next s' →
    feed now chunk s' = feed now chunk s

/-- R21, R66: every FEED that is not refused records its own time, and leaves the refused mark and the inputs after
it. That an empty FEED records its time too is the spec's own decision D5. -/
def Obligations.FeedRecordsItsOwnTime : Prop :=
  ∀ (s t : State) (now : Nat) (chunk : List Byte) (rest : List Event), awaits (.feed now chunk) rest s →
    onTime now s → step s = .next t →
    t.lastT = some now ∧ t.lastV = true ∧ t.ok = false ∧ t.refused = s.refused ∧ t.inputs = rest

/-- R92, R99: the output sequence only grows, and only a FEED (or the end of one) makes it grow. R92 stands under the
spec's own decision D16: log 12. A step that finishes a FEED, from a state with the verdict set, exists by the model's
choice: log 3. -/
def Obligations.OutputsAreNeverWithdrawn : Prop :=
  ∀ s t : State, step s = .next t → ∃ es, t.out = s.out ++ es ∧
    (es ≠ [] → s.ok = true ∨ ∃ now chunk rest, s.inputs = .feed now chunk :: rest)

/-- R93: every frame that a step from between events dispatches has `XOR7` = 0 and the length its header declares,
which the event carries. The spec derives R93 from R68, R70 and R79. -/
def Obligations.DispatchedFramesAreValidAndWhole : Prop :=
  ∀ s t : State, s.ok = false → step s = .next t → ∃ es, t.out = s.out ++ es ∧ ∀ e ∈ es,
    xor7 e.frame = 0#8 ∧ e.len = e.frame.length ∧ ∃ b0 r, e.frame = b0 :: r ∧ e.frame.length = frameLength b0

/-- With no event presented the machine idles. The model's own choice of a step there: log 1. -/
def Obligations.NoEventLeavesTheStateAlone : Prop :=
  ∀ s : State, s.ok = false → s.inputs = [] → step s = .next s

/-! RESET, the mark and the invariant (10_state.md, 70_reset_and_hazards.md). -/

/-- R109, R36: RESET empties the buffer, leaves `last_t` unwritten, emits and traces nothing, keeps the refused mark,
and done twice is done once. The RESET event is the spec's own decision D6: log 19. -/
def Obligations.ResetEventClearsBufferAndTimestamp : Prop :=
  ∀ (s : State) (rest : List Event), awaits .reset rest s →
    (∃ t, step s = .next t ∧ t = { s with buf := [], lastT := none, inputs := rest } ∧ t.lastV = false ∧
      readLastT t = .error .lastTUnwritten) ∧
    andThen (step { s with inputs := .reset :: .reset :: rest }) step = step s

/-- R26, R110: the state a run starts in. The values are the spec's own decision D6: log 19. -/
def Obligations.RunStartsInTheResetState : Prop :=
  State.reset.buf = [] ∧ State.reset.lastV = false ∧ readLastT State.reset = .error .lastTUnwritten ∧
    State.reset.refused = false ∧
    ∀ (s : State) (rest : List Event), awaits .reset rest s →
      ∃ t, step s = .next t ∧ t.buf = State.reset.buf ∧ t.lastT = State.reset.lastT ∧ t.refused = s.refused

/-- R28: the mark starts false, is set by exactly the refused events, and is never cleared. The mark is the spec's own
decision D4: log 6. -/
def Obligations.RefusedMarkIsSetOnlyByBackwardFeedAndKept : Prop :=
  State.reset.refused = false ∧
  ∀ s t : State, step s = .next t → (t.refused = true ↔ s.refused = true ∨
    ∃ now chunk rest t0, awaits (.feed now chunk) rest s ∧ s.lastT = some t0 ∧ now < t0)

/-- The invariant of the states between events holds where a run starts. It rests on the model's own reset values of `ok`,
`out` and `trace`: logs 3 and 7. -/
def Obligations.InvHoldsAtReset : Prop :=
  State.reset.Inv

/-- R19, R20, R23, R93, R95: every step from a state of the invariant gives a state of the invariant. -/
def Obligations.EveryStepKeepsInv : Prop :=
  ∀ s t : State, s.Inv → step s = .next t → t.Inv

/-- R19: after every FEED and after RESET the buffer holds less than the frame its header declares, hence at most 16
bytes; within a FEED, after Append, it holds at most 16 bytes and the chunk's. The spec derives R19 from R67, R70 and
R26. -/
def Obligations.BufferBetweenEventsIsAShortResidual : Prop :=
  (∀ (s t : State) (now : Nat) (chunk : List Byte) (rest : List Event), awaits (.feed now chunk) rest s →
    onTime now s → step s = .next t →
    (t.buf = [] ∨ ∃ b0 r, t.buf = b0 :: r ∧ t.buf.length < (lengthCode b0).toNat + 2) ∧
      t.buf.length ≤ Config.residualMax) ∧
  (∀ (s t : State) (rest : List Event), awaits .reset rest s → step s = .next t → t.buf = []) ∧
  ∀ (s : State) (now : Nat) (chunk : List Byte), isResidual s.buf = true →
    (append chunk { s with buf := keptBytes now s }).buf.length ≤ Config.residualMax + chunk.length

/-! The permitted realisation (10_state.md R29). -/

/-- R29: the byte-serial realisation with a saturating idle counter gives the machine's outputs: it starts with it, each
passing ms keeps them together, and so does each FEED and each RESET (R97, R109). The equivalence is R29's own inference
under the spec's decisions D10 and D11: log 9. The realisation as a second machine, and its counter's value at reset and
after a RESET, are the model's choice: log 17. -/
def Obligations.IdleCounterRealisationAgrees : Prop :=
  (∀ now, Realises now Realised.reset State.reset) ∧
  ∀ (now : Nat) (h : Realised) (s : State), s.Inv → Realises now h s →
    Realises (now + 1) h.tick s ∧
    (∀ (chunk : List Byte) (rest : List Event), awaits (.feed now chunk) rest s →
      ∃ t, step s = .next t ∧ Realises now (h.feed chunk) t) ∧
    ∀ rest : List Event, awaits .reset rest s → ∃ t, step s = .next t ∧ Realises now h.takeReset t

/-- R29: taken in byte by byte, no more than 17 bytes are ever held, and a residual is left after each byte. That 17 cells
suffice is R29's own inference under the spec's decisions D10 and D11: log 9. The realisation as a second machine is the
model's choice: log 17. -/
def Obligations.SerialIntakeFitsSeventeenCells : Prop :=
  ∀ (h : Realised) (b : Byte), isResidual h.buf = true →
    (h.buf ++ [b]).length ≤ Config.maxFrame ∧ isResidual (h.intakeByte b).buf = true ∧
      (isResidual (h.buf ++ [b]) = false → wholeFrame (h.buf ++ [b]) = true)

/-! Routing, as the rules write it (42_demux.md R84, R85). -/

/-- R84, R85: the category `C = (b0 >> 4) & 0x07` selects the output, and for C = 1 all of byte 1 does; every other value
of either is unrecognised and gives no output event; bit 7 of the header, the length code and a Voltage frame's byte 1
decide nothing. -/
def Obligations.CategoryThenSubTypeSelectTheOutput : Prop :=
  ∀ (f tl : List Byte) (b0 b1 : Byte) (s : State), f = b0 :: b1 :: tl → wholeFrame f = true → validate f = true →
    ∃ t, dispatch f s = .next t ∧
      ((b0 >>> 4) &&& 0x07#8 = 1#8 →
        (b1 = 0x81#8 → t.out = s.out ++ [{ kind := .interval, len := f.length, frame := f }]) ∧
        (b1 = 0x82#8 → t.out = s.out ++ [{ kind := .distance, len := f.length, frame := f }]) ∧
        (b1 ≠ 0x81#8 → b1 ≠ 0x82#8 → t.out = s.out)) ∧
      ((b0 >>> 4) &&& 0x07#8 = 2#8 → t.out = s.out ++ [{ kind := .voltage, len := f.length, frame := f }]) ∧
      ((b0 >>> 4) &&& 0x07#8 ≠ 1#8 → (b0 >>> 4) &&& 0x07#8 ≠ 2#8 → t.out = s.out)
end

