-- ==== Sys2Proof/Laws/Decode.lean ====
section
/-! SUPPORT. The decoder's and the encoder's small lemmas: header fields, routing, and what decoding a sequence can give. -/

namespace Sys2Proof

theorem lengthCode_headerByte (x : Bool) (c : BitVec 3) (n : BitVec 4) : lengthCode (headerByte x c n) = n := by
  revert x c n; decide

theorem category_headerByte (x : Bool) (c : BitVec 3) (n : BitVec 4) : category (headerByte x c n) = c := by
  revert x c n; decide

theorem topBit_headerByte (x : Bool) (c : BitVec 3) (n : BitVec 4) : topBit (headerByte x c n) = x := by
  revert x c n; decide

theorem headerByte_fields (b : Byte) : headerByte (topBit b) (category b) (lengthCode b) = b := by
  revert b; decide

theorem frameLength_headerByte (x : Bool) (c : BitVec 3) (n : BitVec 4) :
    frameLength (headerByte x c n) = n.toNat + 2 := by
  rw [frameLength, lengthCode_headerByte]

theorem two_le_frameLength (b : Byte) : 2 ≤ frameLength b := by
  simp [frameLength]

theorem frameLength_le (b : Byte) : frameLength b ≤ 17 := by
  have := (lengthCode b).isLt
  simp only [frameLength]; omega

/-- The bits of W (30_encoding.md R51). -/
theorem getElem_decodeWord (b0 b1 : Byte) (k : Nat) (hk : k < 16) :
    (decodeWord b0 b1)[k] = if h : k < 8 then b1[k] else b0[k - 8] :=
  BitVec.getElem_append ..

/-- The bits of a header built from its fields (30_encoding.md R46). -/
theorem getElem_headerByte (x : Bool) (c : BitVec 3) (n : BitVec 4) (k : Nat) (hk : k < 8) :
    (headerByte x c n)[k] = if k < 4 then n.getLsbD k else if k < 7 then c.getLsbD (k - 4) else x := by
  rw [← BitVec.getLsbD_eq_getElem, headerByte, BitVec.getLsbD_append, BitVec.getLsbD_append]
  interval_cases k <;> simp

/-- W of a header built from its fields, under a mask that covers the category: the category's three bits. -/
theorem decodeWord_header_category (x : Bool) (c : BitVec 3) (n : BitVec 4) (b1 : Byte) :
    decodeWord (headerByte x c n) b1 &&& 0x7000#16 = c.setWidth 16 <<< 12 := by
  ext k hk
  rw [BitVec.getElem_and, getElem_decodeWord]
  interval_cases k <;> simp [getElem_headerByte]

/-- W of a header built from its fields, under the Speed rows' mask: the category's bits and all of byte 1. -/
theorem decodeWord_header_subType (x : Bool) (c : BitVec 3) (n : BitVec 4) (b1 : Byte) :
    decodeWord (headerByte x c n) b1 &&& 0x70FF#16 = c.setWidth 16 <<< 12 ||| b1.setWidth 16 := by
  ext k hk
  rw [BitVec.getElem_and, getElem_decodeWord]
  interval_cases k <;> simp [getElem_headerByte]

/-- Every category is one of the eight values (30_encoding.md R49). -/
theorem category_cases (c : BitVec 3) :
    c = 0#3 ∨ c = 1#3 ∨ c = 2#3 ∨ c = 3#3 ∨ c = 4#3 ∨ c = 5#3 ∨ c = 6#3 ∨ c = 7#3 := by
  revert c; decide

/-- Decoding a sequence of at least two bytes, by whether its tail is complete. -/
theorem decode_cons_cons (b0 b1 : Byte) (r : List Byte) :
    decode (b0 :: b1 :: r) =
      if (lengthCode b0).toNat ≤ r.length then
        .ok (routeType (topBit b0) (category b0) (lengthCode b0) b1 (r.take (lengthCode b0).toNat),
          r.drop (lengthCode b0).toNat)
      else .error .incompleteFrame := rfl

/-- The routing of each type (42_demux.md R84, R85). -/
@[simp] theorem routeType_interval (x : Bool) (n : BitVec 4) (tail : List Byte) :
    routeType x 1#3 n 0x81#8 tail = .interval x n tail := rfl

@[simp] theorem routeType_distance (x : Bool) (n : BitVec 4) (tail : List Byte) :
    routeType x 1#3 n 0x82#8 tail = .distance x n tail := rfl

theorem routeType_speedUnrecognized (x : Bool) (n : BitVec 4) (s : Byte) (tail : List Byte)
    (h1 : s ≠ 0x81#8) (h2 : s ≠ 0x82#8) : routeType x 1#3 n s tail = .speedUnrecognized x n s tail :=
  (if_neg h1).trans (if_neg h2)

@[simp] theorem routeType_voltage (x : Bool) (n : BitVec 4) (b : Byte) (tail : List Byte) :
    routeType x 2#3 n b tail = .voltage x n b tail := rfl

@[simp] theorem routeType_cat0 (x : Bool) (n : BitVec 4) (b : Byte) (tail : List Byte) :
    routeType x 0#3 n b tail = .cat0 x n b tail := rfl

@[simp] theorem routeType_cat3 (x : Bool) (n : BitVec 4) (b : Byte) (tail : List Byte) :
    routeType x 3#3 n b tail = .cat3 x n b tail := rfl

@[simp] theorem routeType_cat4 (x : Bool) (n : BitVec 4) (b : Byte) (tail : List Byte) :
    routeType x 4#3 n b tail = .cat4 x n b tail := rfl

@[simp] theorem routeType_cat5 (x : Bool) (n : BitVec 4) (b : Byte) (tail : List Byte) :
    routeType x 5#3 n b tail = .cat5 x n b tail := rfl

@[simp] theorem routeType_cat6 (x : Bool) (n : BitVec 4) (b : Byte) (tail : List Byte) :
    routeType x 6#3 n b tail = .cat6 x n b tail := rfl

@[simp] theorem routeType_cat7 (x : Bool) (n : BitVec 4) (b : Byte) (tail : List Byte) :
    routeType x 7#3 n b tail = .cat7 x n b tail := rfl

/-- The encoder undoes the routing, whatever the category and byte 1. -/
theorem encode_routeType (x : Bool) (c : BitVec 3) (n : BitVec 4) (b1 : Byte) (tail : List Byte) :
    encode (routeType x c n b1 tail) = frameBytes x c n b1 tail := by
  rcases category_cases c with h | h | h | h | h | h | h | h <;> subst h <;> try rfl
  by_cases h1 : b1 = 0x81#8
  · subst h1; rfl
  by_cases h2 : b1 = 0x82#8
  · subst h2; rfl
  rw [routeType_speedUnrecognized x n b1 tail h1 h2]; rfl

/-- What the routing gives is well formed when the tail fits. -/
theorem wellFormed_routeType (x : Bool) (c : BitVec 3) (n : BitVec 4) (b1 : Byte) (tail : List Byte) :
    wellFormed (routeType x c n b1 tail) = tailFits n tail := by
  rcases category_cases c with h | h | h | h | h | h | h | h <;> subst h <;> try rfl
  by_cases h1 : b1 = 0x81#8
  · subst h1; rfl
  by_cases h2 : b1 = 0x82#8
  · subst h2; rfl
  rw [routeType_speedUnrecognized x n b1 tail h1 h2]
  simp [wellFormed, subTypeUnrecognized, h1, h2]

/-- A frame's own bytes, followed by anything, decode to its routing and leave what follows. -/
theorem decode_frameBytes_append (x : Bool) (c : BitVec 3) (n : BitVec 4) (b1 : Byte) (tail rest : List Byte)
    (h : tailFits n tail = true) :
    decode (frameBytes x c n b1 tail ++ rest) = .ok (routeType x c n b1 tail, rest) := by
  have h : tail.length = n.toNat := by simpa [tailFits] using h
  simp [frameBytes, decode_cons_cons, lengthCode_headerByte, category_headerByte, topBit_headerByte, ← h]

namespace Machine

/-- A whole frame is its header, byte 1, and as many bytes as the length code says. -/
theorem wholeFrame_cases {f : List Byte} (h : wholeFrame f = true) :
    ∃ b0 b1 tail, f = b0 :: b1 :: tail ∧ tail.length = (lengthCode b0).toNat := by
  match f with
  | [] => simp [wholeFrame] at h
  | [b0] => simp [wholeFrame, frameLength] at h
  | b0 :: b1 :: tail => exact ⟨b0, b1, tail, rfl, by simpa [wholeFrame, frameLength] using h⟩

/-- A whole frame decodes, with nothing left over. -/
theorem decode_wholeFrame {b0 b1 : Byte} {tail : List Byte} (h : tail.length = (lengthCode b0).toNat) :
    decode (b0 :: b1 :: tail) = .ok (routeType (topBit b0) (category b0) (lengthCode b0) b1 tail, []) := by
  simp [decode_cons_cons, ← h]

end Machine

end Sys2Proof
end

