-- ==== Sys2Proof/Laws/Flags.lean ====
section
/-! SUPPORT. XOR7 as algebra: it folds from any start, appends, and ignores order. -/

namespace Sys2Proof.Machine

theorem xor7_foldl (f : List Byte) (x : Byte) :
    f.foldl (fun x b => x ^^^ (b &&& 0x7F#8)) x = x ^^^ xor7 f := by
  induction f generalizing x with
  | nil => simp [xor7]
  | cons b f ih =>
    simp only [xor7, List.foldl_cons] at ih ⊢
    rw [ih, ih (0#8 ^^^ _)]
    simp [BitVec.xor_assoc]

@[simp] theorem xor7_nil : xor7 [] = 0#8 := rfl

@[simp] theorem xor7_cons (b : Byte) (f : List Byte) : xor7 (b :: f) = (b &&& 0x7F#8) ^^^ xor7 f := by
  have := xor7_foldl f (0#8 ^^^ (b &&& 0x7F#8))
  simpa [xor7] using this

theorem xor7_append (f g : List Byte) : xor7 (f ++ g) = xor7 f ^^^ xor7 g := by
  induction f with
  | nil => simp
  | cons b f ih => simp [ih, BitVec.xor_assoc]

/-- The accumulator is 7 bits wide: its top bit is never set (41_validator.md R77). -/
theorem xor7_top (f : List Byte) : (xor7 f).getLsbD 7 = false := by
  induction f with
  | nil => rfl
  | cons b f ih => simpa using ih

theorem validate_iff (f : List Byte) : validate f = true ↔ xor7 f = 0#8 := by
  simp [validate]

theorem validate_eq_false_iff (f : List Byte) : validate f = false ↔ xor7 f ≠ 0#8 := by
  simp [validate]

end Sys2Proof.Machine
end

