-- ==== Sys2Proof/Laws/State.lean ====
section
/-! SUPPORT. One lemma per field of State per named operation, so that no proof unfolds a record update. -/

namespace Sys2Proof.Machine

@[simp] theorem append_buf (chunk : List Byte) (s : State) : (append chunk s).buf = s.buf ++ chunk := rfl
@[simp] theorem append_lastT (chunk : List Byte) (s : State) : (append chunk s).lastT = s.lastT := rfl
@[simp] theorem append_ok (chunk : List Byte) (s : State) : (append chunk s).ok = s.ok := rfl
@[simp] theorem append_refused (chunk : List Byte) (s : State) : (append chunk s).refused = s.refused := rfl
@[simp] theorem append_inputs (chunk : List Byte) (s : State) : (append chunk s).inputs = s.inputs := rfl
@[simp] theorem append_out (chunk : List Byte) (s : State) : (append chunk s).out = s.out := rfl
@[simp] theorem append_trace (chunk : List Byte) (s : State) : (append chunk s).trace = s.trace := rfl

@[simp] theorem consume_buf (n : Nat) (s : State) : (consume n s).buf = s.buf.drop n := rfl
@[simp] theorem consume_lastT (n : Nat) (s : State) : (consume n s).lastT = s.lastT := rfl
@[simp] theorem consume_ok (n : Nat) (s : State) : (consume n s).ok = false := rfl
@[simp] theorem consume_refused (n : Nat) (s : State) : (consume n s).refused = s.refused := rfl
@[simp] theorem consume_inputs (n : Nat) (s : State) : (consume n s).inputs = s.inputs := rfl
@[simp] theorem consume_out (n : Nat) (s : State) : (consume n s).out = s.out := rfl
@[simp] theorem consume_trace (n : Nat) (s : State) : (consume n s).trace = s.trace := rfl

@[simp] theorem clear_buf (s : State) : (clear s).buf = [] := rfl
@[simp] theorem clear_lastT (s : State) : (clear s).lastT = s.lastT := rfl
@[simp] theorem clear_ok (s : State) : (clear s).ok = s.ok := rfl
@[simp] theorem clear_refused (s : State) : (clear s).refused = s.refused := rfl
@[simp] theorem clear_inputs (s : State) : (clear s).inputs = s.inputs := rfl
@[simp] theorem clear_out (s : State) : (clear s).out = s.out := rfl
@[simp] theorem clear_trace (s : State) : (clear s).trace = s.trace := rfl

@[simp] theorem stamp_buf (now : Nat) (s : State) : (stamp now s).buf = s.buf := rfl
@[simp] theorem stamp_lastT (now : Nat) (s : State) : (stamp now s).lastT = some now := rfl
@[simp] theorem stamp_ok (now : Nat) (s : State) : (stamp now s).ok = s.ok := rfl
@[simp] theorem stamp_refused (now : Nat) (s : State) : (stamp now s).refused = s.refused := rfl
@[simp] theorem stamp_inputs (now : Nat) (s : State) : (stamp now s).inputs = s.inputs := rfl
@[simp] theorem stamp_out (now : Nat) (s : State) : (stamp now s).out = s.out := rfl
@[simp] theorem stamp_trace (now : Nat) (s : State) : (stamp now s).trace = s.trace := rfl

@[simp] theorem emit_buf (k : Kind) (f : List Byte) (s : State) : (emit k f s).buf = s.buf := rfl
@[simp] theorem emit_lastT (k : Kind) (f : List Byte) (s : State) : (emit k f s).lastT = s.lastT := rfl
@[simp] theorem emit_ok (k : Kind) (f : List Byte) (s : State) : (emit k f s).ok = s.ok := rfl
@[simp] theorem emit_refused (k : Kind) (f : List Byte) (s : State) : (emit k f s).refused = s.refused := rfl
@[simp] theorem emit_inputs (k : Kind) (f : List Byte) (s : State) : (emit k f s).inputs = s.inputs := rfl
@[simp] theorem emit_out (k : Kind) (f : List Byte) (s : State) : (emit k f s).out = s.out ++ [{ kind := k, len := f.length, frame := f }] := rfl
@[simp] theorem emit_trace (k : Kind) (f : List Byte) (s : State) : (emit k f s).trace = s.trace := rfl

@[simp] theorem record_buf (e : TraceEvent) (s : State) : (record e s).buf = s.buf := rfl
@[simp] theorem record_lastT (e : TraceEvent) (s : State) : (record e s).lastT = s.lastT := rfl
@[simp] theorem record_ok (e : TraceEvent) (s : State) : (record e s).ok = s.ok := rfl
@[simp] theorem record_refused (e : TraceEvent) (s : State) : (record e s).refused = s.refused := rfl
@[simp] theorem record_inputs (e : TraceEvent) (s : State) : (record e s).inputs = s.inputs := rfl
@[simp] theorem record_out (e : TraceEvent) (s : State) : (record e s).out = s.out := rfl
@[simp] theorem record_trace (e : TraceEvent) (s : State) : (record e s).trace = s.trace ++ [e] := rfl

@[simp] theorem dropCandidate_buf (c : DropCause) (f : List Byte) (s : State) : (dropCandidate c f s).buf = s.buf := rfl
@[simp] theorem dropCandidate_lastT (c : DropCause) (f : List Byte) (s : State) : (dropCandidate c f s).lastT = s.lastT := rfl
@[simp] theorem dropCandidate_ok (c : DropCause) (f : List Byte) (s : State) : (dropCandidate c f s).ok = s.ok := rfl
@[simp] theorem dropCandidate_refused (c : DropCause) (f : List Byte) (s : State) : (dropCandidate c f s).refused = s.refused := rfl
@[simp] theorem dropCandidate_inputs (c : DropCause) (f : List Byte) (s : State) : (dropCandidate c f s).inputs = s.inputs := rfl
@[simp] theorem dropCandidate_out (c : DropCause) (f : List Byte) (s : State) : (dropCandidate c f s).out = s.out := rfl
@[simp] theorem dropCandidate_trace (c : DropCause) (f : List Byte) (s : State) : (dropCandidate c f s).trace = s.trace ++ [.drop c f] := rfl

@[simp] theorem markRefused_buf (s : State) : (markRefused s).buf = s.buf := rfl
@[simp] theorem markRefused_lastT (s : State) : (markRefused s).lastT = s.lastT := rfl
@[simp] theorem markRefused_ok (s : State) : (markRefused s).ok = s.ok := rfl
@[simp] theorem markRefused_refused (s : State) : (markRefused s).refused = true := rfl
@[simp] theorem markRefused_inputs (s : State) : (markRefused s).inputs = s.inputs := rfl
@[simp] theorem markRefused_out (s : State) : (markRefused s).out = s.out := rfl
@[simp] theorem markRefused_trace (s : State) : (markRefused s).trace = s.trace := rfl

@[simp] theorem resetBlock_buf (s : State) : (resetBlock s).buf = [] := rfl
@[simp] theorem resetBlock_lastT (s : State) : (resetBlock s).lastT = none := rfl
@[simp] theorem resetBlock_ok (s : State) : (resetBlock s).ok = s.ok := rfl
@[simp] theorem resetBlock_refused (s : State) : (resetBlock s).refused = s.refused := rfl
@[simp] theorem resetBlock_inputs (s : State) : (resetBlock s).inputs = s.inputs := rfl
@[simp] theorem resetBlock_out (s : State) : (resetBlock s).out = s.out := rfl
@[simp] theorem resetBlock_trace (s : State) : (resetBlock s).trace = s.trace := rfl

@[simp] theorem present_buf (es : List Event) (s : State) : (present es s).buf = s.buf := rfl
@[simp] theorem present_lastT (es : List Event) (s : State) : (present es s).lastT = s.lastT := rfl
@[simp] theorem present_ok (es : List Event) (s : State) : (present es s).ok = s.ok := rfl
@[simp] theorem present_refused (es : List Event) (s : State) : (present es s).refused = s.refused := rfl
@[simp] theorem present_inputs (es : List Event) (s : State) : (present es s).inputs = s.inputs ++ es := rfl
@[simp] theorem present_out (es : List Event) (s : State) : (present es s).out = s.out := rfl
@[simp] theorem present_trace (es : List Event) (s : State) : (present es s).trace = s.trace := rfl

@[simp] theorem judge_buf (f : List Byte) (s : State) : (judge f s).buf = s.buf := rfl
@[simp] theorem judge_lastT (f : List Byte) (s : State) : (judge f s).lastT = s.lastT := rfl
@[simp] theorem judge_ok (f : List Byte) (s : State) : (judge f s).ok = validate f := rfl
@[simp] theorem judge_refused (f : List Byte) (s : State) : (judge f s).refused = s.refused := rfl
@[simp] theorem judge_inputs (f : List Byte) (s : State) : (judge f s).inputs = s.inputs := rfl
@[simp] theorem judge_out (f : List Byte) (s : State) : (judge f s).out = s.out := rfl
@[simp] theorem judge_trace (f : List Byte) (s : State) : (judge f s).trace = s.trace := rfl

/-- `last_v` is 1 exactly when `last_t` holds a value. -/
theorem lastV_iff (s : State) : s.lastV = true ↔ ∃ t, s.lastT = some t := by
  simp [State.lastV, Option.isSome_iff_exists]

theorem lastV_eq_false_iff (s : State) : s.lastV = false ↔ s.lastT = none := by
  simp [State.lastV]

end Sys2Proof.Machine
end

