-- ==== Sys2Proof/Laws/Ops.lean ====
section
/-! SUPPORT. What the shared operations that can stop may answer. -/

namespace Sys2Proof.Machine

@[simp] theorem andThen_next (s : State) (k : State → Host.Outcome State Fault Refusal) :
    andThen (.next s) k = k s := rfl

@[simp] theorem andThen_fault (r : Fault) (k : State → Host.Outcome State Fault Refusal) :
    andThen (.fault r) k = .fault r := rfl

@[simp] theorem andThen_refused (r : Refusal) (k : State → Host.Outcome State Fault Refusal) :
    andThen (.refused r) k = .refused r := rfl

theorem andThen_assoc (o : Host.Outcome State Fault Refusal) (k l : State → Host.Outcome State Fault Refusal) :
    andThen (andThen o k) l = andThen o fun s => andThen (k s) l := by
  cases o <;> rfl

/-- A next state of a sequence comes through a next state of its first part. -/
theorem andThen_eq_next_iff {o : Host.Outcome State Fault Refusal} {k : State → Host.Outcome State Fault Refusal}
    {t : State} : andThen o k = .next t ↔ ∃ s, o = .next s ∧ k s = .next t := by
  cases o <;> simp

@[simp] theorem withRead_ok {α : Type} (a : α) (k : α → Host.Outcome State Fault Refusal) :
    withRead (.ok a) k = k a := rfl

@[simp] theorem withRead_error {α : Type} (r : Fault) (k : α → Host.Outcome State Fault Refusal) :
    withRead (.error r) k = .fault r := rfl

/-- A next state after a read comes through a value read. -/
theorem withRead_eq_next_iff {α : Type} {v : Except Fault α} {k : α → Host.Outcome State Fault Refusal} {t : State} :
    withRead v k = .next t ↔ ∃ a, v = .ok a ∧ k a = .next t := by
  cases v <;> simp

/-- MemRead gives the slice when it lies inside the buffer, and faults otherwise. -/
theorem memRead_eq_ok_iff {addr n : Nat} {s : State} {f : List Byte} :
    memRead addr n s = .ok f ↔ addr + n ≤ s.buf.length ∧ f = (s.buf.drop addr).take n := by
  unfold memRead
  split <;> simp_all [eq_comm]

theorem memRead_length {addr n : Nat} {s : State} {f : List Byte} (h : memRead addr n s = .ok f) : f.length = n := by
  obtain ⟨h, rfl⟩ := memRead_eq_ok_iff.mp h
  simp; omega

theorem readLastT_eq_ok_iff {s : State} {t : Nat} : readLastT s = .ok t ↔ s.lastT = some t := by
  unfold readLastT
  split <;> simp_all

end Sys2Proof.Machine
end

