-- ==== Sys2Proof/Laws/Assembler.lean ====
section
/-! SUPPORT. What the parts of FEED can do: the loop condition, the candidate, the meanings, one iteration, the loop
unrolled once without its bound, and the stale test. -/

namespace Sys2Proof.Machine

/-- The loop goes on exactly when the buffer is no residual (10_state.md R19, 40_assembler.md R70). -/
theorem candidateComplete_eq (buf : List Byte) : candidateComplete buf = !isResidual buf := by
  cases buf with
  | nil => rfl
  | cons b0 r => simp only [candidateComplete, isResidual, ← decide_not, not_lt]

/-- The candidate is the first `L` bytes of a buffer that has them. -/
theorem candidate_eq_ok_iff {s : State} {f : List Byte} :
    candidate s = .ok f ↔ wholeFrame f = true ∧ ∃ rest, s.buf = f ++ rest := by
  cases hb : s.buf with
  | nil =>
    have : wholeFrame [] = false := rfl
    simp only [candidate, hb]
    constructor
    · simp
    · rintro ⟨h, rest, hr⟩
      simp_all
  | cons b0 r =>
    simp only [candidate, hb, memRead_eq_ok_iff]
    constructor
    · rintro ⟨hle, rfl⟩
      refine ⟨?_, (b0 :: r).drop (frameLength b0), by simp⟩
      have h2 := two_le_frameLength b0
      obtain ⟨k, hk⟩ : ∃ k, frameLength b0 = k + 1 := ⟨frameLength b0 - 1, by omega⟩
      simp only [List.length_cons, zero_add] at hle
      simp [wholeFrame, hk]; omega
    · rintro ⟨hw, rest, he⟩
      obtain ⟨c0, c1, tail, rfl, ht⟩ := wholeFrame_cases hw
      simp only [List.cons_append, List.cons.injEq] at he
      obtain ⟨rfl, rfl⟩ := he
      simp only [List.length_cons, List.length_append, List.drop_zero, frameLength]
      refine ⟨by omega, ?_⟩
      simp [← ht]

/-- A complete candidate can be read. -/
theorem candidate_of_complete {s : State} (h : candidateComplete s.buf = true) : ∃ f, candidate s = .ok f := by
  cases hb : s.buf with
  | nil => simp [candidateComplete, hb] at h
  | cons b0 r =>
    simp only [candidateComplete, hb, decide_eq_true_eq] at h
    exact ⟨_, by simp only [candidate, hb]; exact memRead_eq_ok_iff.mpr ⟨by simpa [hb] using h, rfl⟩⟩

/-- No meaning touches the buffer. -/
theorem exec_buf {i : Instr} {s t : State} (h : exec i s = .next t) : t.buf = s.buf := by
  cases i <;> (cases h; rfl)

/-- Every meaning answers a next state. -/
theorem exec_next (i : Instr) (s : State) : ∃ t, exec i s = .next t := by
  cases i <;> exact ⟨_, rfl⟩

/-- DISPATCH of a whole frame is its routed type's meaning. -/
theorem dispatch_wholeFrame {b0 b1 : Byte} {tail : List Byte} (s : State)
    (h : tail.length = (lengthCode b0).toNat) :
    dispatch (b0 :: b1 :: tail) s = exec (routeType (topBit b0) (category b0) (lengthCode b0) b1 tail) s := by
  simp [dispatch, decode_wholeFrame h]

/-- What follows the verdict of a whole candidate always answers a next state, with exactly the candidate gone and the
verdict given up. -/
theorem finishCandidate_next {f : List Byte} (hw : wholeFrame f = true) (s : State) :
    ∃ t, finishCandidate f s = .next t ∧ t.buf = s.buf.drop f.length ∧ t.ok = false := by
  obtain ⟨b0, b1, tail, rfl, ht⟩ := wholeFrame_cases hw
  unfold finishCandidate
  split
  · obtain ⟨t, h⟩ := exec_next (routeType (topBit b0) (category b0) (lengthCode b0) b1 tail) s
    rw [dispatch_wholeFrame s ht, h]
    exact ⟨_, rfl, by simp [exec_buf h], rfl⟩
  · exact ⟨_, rfl, rfl, rfl⟩

/-- An iteration on a complete candidate answers a next state with at least two bytes fewer. -/
theorem takeCandidate_next {s : State} {f : List Byte} (h : candidate s = .ok f) :
    ∃ t, takeCandidate s = .next t ∧ finishCandidate f (judge f s) = .next t ∧ t.buf = s.buf.drop f.length ∧
      t.ok = false ∧ t.buf.length + 2 ≤ s.buf.length := by
  obtain ⟨hw, rest, hb⟩ := candidate_eq_ok_iff.mp h
  obtain ⟨t, ht, h1, h2⟩ := finishCandidate_next hw (judge f s)
  obtain ⟨b0, b1, tail, rfl, -⟩ := wholeFrame_cases hw
  refine ⟨t, ?_, ht, h1, h2, ?_⟩
  · rw [takeCandidate, h]; exact ht
  · rw [h1]; simp [hb]

theorem extractBounded_succ (k : Nat) (s : State) :
    extractBounded (k + 1) s =
      if candidateComplete s.buf then andThen (takeCandidate s) (extractBounded k) else .next s := rfl

theorem extractBounded_mono {k : Nat} {s : State} (h : s.buf.length ≤ k) :
    extractBounded (k + 1) s = extractBounded k s := by
  induction k generalizing s with
  | zero =>
    have : s.buf = [] := List.length_eq_zero_iff.mp (by omega)
    simp [extractBounded, this, candidateComplete]
  | succ k ih =>
    rw [extractBounded_succ, extractBounded_succ]
    split
    · next hc =>
      obtain ⟨f, hf⟩ := candidate_of_complete hc
      obtain ⟨t, ht, -, -, -, hl⟩ := takeCandidate_next hf
      rw [ht]
      exact ih (by omega)
    · rfl

/-- The loop's bound never shows: any bound of at least the buffer's length gives the loop. -/
theorem extractBounded_eq_extract {k : Nat} {s : State} (h : s.buf.length ≤ k) : extractBounded k s = extract s := by
  induction k, h using Nat.le_induction with
  | base => rfl
  | succ k hk ih => rw [extractBounded_mono hk, ih]

/-- The loop, unrolled once (40_assembler.md R67). -/
theorem extract_unroll (s : State) :
    extract s = if candidateComplete s.buf then andThen (takeCandidate s) extract else .next s := by
  have h1 : extract s = extractBounded (s.buf.length + 1) s := (extractBounded_eq_extract (Nat.le_succ _)).symm
  rw [h1, extractBounded_succ]
  split
  · next hc =>
    obtain ⟨f, hf⟩ := candidate_of_complete hc
    obtain ⟨t, ht, -, -, -, hl⟩ := takeCandidate_next hf
    rw [ht]
    exact extractBounded_eq_extract (by omega)
  · rfl

/-- The loop leaves a residual alone (40_assembler.md R70). -/
theorem extract_residual {s : State} (h : isResidual s.buf = true) : extract s = .next s := by
  rw [extract_unroll, candidateComplete_eq, h]; rfl

/-- The loop takes the candidate at the front, then goes on. -/
theorem extract_candidate {s : State} {f : List Byte} (h : candidate s = .ok f) :
    extract s = andThen (finishCandidate f (judge f s)) extract := by
  obtain ⟨t, h1, h2, -⟩ := takeCandidate_next h
  have hc : candidateComplete s.buf = true := by
    obtain ⟨hw, rest, hb⟩ := candidate_eq_ok_iff.mp h
    obtain ⟨b0, b1, tail, rfl, ht⟩ := wholeFrame_cases hw
    simp [hb, candidateComplete, frameLength, ht]
  rw [extract_unroll, if_pos hc, h1, h2]

/-- A FEED is refused exactly when it is not on time (40_assembler.md R64). -/
theorem backward_eq_false_iff (now : Nat) (s : State) : backward now s = false ↔ onTime now s := by
  unfold backward onTime
  cases s.lastT <;> simp

/-- On a buffer that is empty or stamped, the stale test reads what R65 says. -/
theorem stale_eq {now : Nat} {s : State} (h : s.buf ≠ [] → s.lastV = true) :
    stale now s = .ok (evictsAt now s) := by
  unfold stale evictsAt
  by_cases hb : s.buf = []
  · cases s.lastT <;> simp [hb]
  · obtain ⟨t, ht⟩ := (lastV_iff s).mp (h hb)
    simp [hb, readLastT, ht, Except.map]

/-- The stale test on a buffer that is empty or stamped: it answers a next state, evicted or not. -/
theorem evictStale_eq {now : Nat} {s : State} (h : s.buf ≠ [] → s.lastV = true) :
    evictStale now s = .next { s with buf := keptBytes now s, trace := s.trace ++ evictTrace now s } := by
  rw [evictStale, stale_eq h]
  unfold keptBytes evictTrace
  cases evictsAt now s <;> simp [clear, record]

/-- What FEED can do, said once: refused, or stopped by the read of an unwritten timestamp, or the loop on the kept bytes
and the chunk, stamped (40_assembler.md R63, 60_exceptions.md R100). -/
theorem feed_late {now : Nat} {s : State} (chunk : List Byte) (h : ¬onTime now s) :
    feed now chunk s = .next (markRefused s) := by
  rw [← backward_eq_false_iff, Bool.not_eq_false] at h
  rw [feed, if_pos h]

theorem feed_unstamped {now : Nat} {s : State} (chunk : List Byte) (h1 : s.buf ≠ []) (h2 : s.lastT = none) :
    feed now chunk s = .fault .lastTUnwritten := by
  rw [feed, if_neg (by simp [backward, h2])]
  simp [evictStale, stale, h1, readLastT, h2, Except.map]

theorem feed_onTime {now : Nat} {s : State} (chunk : List Byte) (h : onTime now s)
    (hs : s.buf ≠ [] → s.lastV = true) :
    feed now chunk s = extract { s with
      buf := keptBytes now s ++ chunk, lastT := some now, trace := s.trace ++ evictTrace now s } := by
  rw [feed, (backward_eq_false_iff now s).mpr h, if_neg (by simp), evictStale_eq hs]; rfl

/-- The step between events, for each event the host may present. -/
theorem step_feed {s : State} {now : Nat} {chunk : List Byte} {rest : List Event}
    (h : awaits (.feed now chunk) rest s) : step s = feed now chunk { s with inputs := rest } := by
  obtain ⟨h1, h2⟩ := h
  simp [step, advance, h1, h2, takeEvent]

theorem step_reset {s : State} {rest : List Event} (h : awaits .reset rest s) :
    step s = .next (resetBlock { s with inputs := rest }) := by
  obtain ⟨h1, h2⟩ := h
  simp [step, advance, h1, h2, takeEvent]

/-- What a step can do, said once: it finishes a FEED, idles, resets, refuses a late FEED, or takes a FEED on time. -/
theorem step_cases {s t : State} (h : step s = .next t) :
    (s.ok = true ∧ resumeFeed s = .next t) ∨
    (s.ok = false ∧ s.inputs = [] ∧ t = s) ∨
    (∃ rest, awaits .reset rest s ∧ t = resetBlock { s with inputs := rest }) ∨
    (∃ now chunk rest, awaits (.feed now chunk) rest s ∧ ¬onTime now s ∧ t = markRefused { s with inputs := rest }) ∨
    ∃ now chunk rest, awaits (.feed now chunk) rest s ∧ onTime now s ∧ (s.buf ≠ [] → s.lastV = true) ∧
      extract { s with
        buf := keptBytes now s ++ chunk, lastT := some now, inputs := rest, trace := s.trace ++ evictTrace now s } =
          .next t := by
  by_cases hok : s.ok = true
  · exact .inl ⟨hok, by simpa [step, advance, hok] using h⟩
  · have hok : s.ok = false := by simpa using hok
    right
    match hin : s.inputs with
    | [] => exact .inl ⟨hok, rfl, by simpa [step, advance, hok, hin] using h.symm⟩
    | .reset :: rest =>
      have ha : awaits .reset rest s := ⟨hok, hin⟩
      rw [step_reset ha, Host.Outcome.next.injEq] at h
      exact .inr (.inl ⟨rest, ha, h.symm⟩)
    | .feed now chunk :: rest =>
      have ha : awaits (.feed now chunk) rest s := ⟨hok, hin⟩
      rw [step_feed ha] at h
      right; right
      by_cases ho : onTime now s
      · by_cases hs : s.buf ≠ [] → s.lastV = true
        · rw [feed_onTime chunk (by exact ho) (by exact hs)] at h
          exact .inr ⟨now, chunk, rest, ha, ho, hs, h⟩
        · rw [Classical.not_imp] at hs
          rw [feed_unstamped chunk (by exact hs.1) (by simpa [State.lastV] using hs.2)] at h
          cases h
      · rw [feed_late chunk (by exact ho), Host.Outcome.next.injEq] at h
        exact .inl ⟨now, chunk, rest, ha, ho, h.symm⟩

end Sys2Proof.Machine
end

