-- ==== Sys2Proof/Laws/PerInstr.lean ====
section
/-! SUPPORT. Two facts about every instruction as syntax, one lemma a constructor: how long its encoding is
(30_encoding.md R47), and that its header and byte 1 match its own row of the opcode table (R51, R52). -/

namespace Sys2Proof.Laws

/-- A well-formed instruction's encoding has the length its own header declares, 2 to 17 bytes. -/
def EncodedLength.Statement (i : Instr) : Prop :=
  wellFormed i = true → ∃ b0 r, encode i = b0 :: r ∧ (encode i).length = frameLength b0

theorem EncodedLength.interval (x : Bool) (n : BitVec 4) (tail : List Byte) : Statement (.interval x n tail) := by
  intro h
  have h : tail.length = n.toNat := by simp_all [wellFormed, tailFits]
  exact ⟨_, _, rfl, by simp [encode, frameBytes, frameLength_headerByte, h]⟩

theorem EncodedLength.distance (x : Bool) (n : BitVec 4) (tail : List Byte) : Statement (.distance x n tail) := by
  intro h
  have h : tail.length = n.toNat := by simp_all [wellFormed, tailFits]
  exact ⟨_, _, rfl, by simp [encode, frameBytes, frameLength_headerByte, h]⟩

theorem EncodedLength.speedUnrecognized (x : Bool) (n : BitVec 4) (s : Byte) (tail : List Byte) : Statement (.speedUnrecognized x n s tail) := by
  intro h
  have h : tail.length = n.toNat := by simp_all [wellFormed, tailFits]
  exact ⟨_, _, rfl, by simp [encode, frameBytes, frameLength_headerByte, h]⟩

theorem EncodedLength.voltage (x : Bool) (n : BitVec 4) (b : Byte) (tail : List Byte) : Statement (.voltage x n b tail) := by
  intro h
  have h : tail.length = n.toNat := by simp_all [wellFormed, tailFits]
  exact ⟨_, _, rfl, by simp [encode, frameBytes, frameLength_headerByte, h]⟩

theorem EncodedLength.cat0 (x : Bool) (n : BitVec 4) (b : Byte) (tail : List Byte) : Statement (.cat0 x n b tail) := by
  intro h
  have h : tail.length = n.toNat := by simp_all [wellFormed, tailFits]
  exact ⟨_, _, rfl, by simp [encode, frameBytes, frameLength_headerByte, h]⟩

theorem EncodedLength.cat3 (x : Bool) (n : BitVec 4) (b : Byte) (tail : List Byte) : Statement (.cat3 x n b tail) := by
  intro h
  have h : tail.length = n.toNat := by simp_all [wellFormed, tailFits]
  exact ⟨_, _, rfl, by simp [encode, frameBytes, frameLength_headerByte, h]⟩

theorem EncodedLength.cat4 (x : Bool) (n : BitVec 4) (b : Byte) (tail : List Byte) : Statement (.cat4 x n b tail) := by
  intro h
  have h : tail.length = n.toNat := by simp_all [wellFormed, tailFits]
  exact ⟨_, _, rfl, by simp [encode, frameBytes, frameLength_headerByte, h]⟩

theorem EncodedLength.cat5 (x : Bool) (n : BitVec 4) (b : Byte) (tail : List Byte) : Statement (.cat5 x n b tail) := by
  intro h
  have h : tail.length = n.toNat := by simp_all [wellFormed, tailFits]
  exact ⟨_, _, rfl, by simp [encode, frameBytes, frameLength_headerByte, h]⟩

theorem EncodedLength.cat6 (x : Bool) (n : BitVec 4) (b : Byte) (tail : List Byte) : Statement (.cat6 x n b tail) := by
  intro h
  have h : tail.length = n.toNat := by simp_all [wellFormed, tailFits]
  exact ⟨_, _, rfl, by simp [encode, frameBytes, frameLength_headerByte, h]⟩

theorem EncodedLength.cat7 (x : Bool) (n : BitVec 4) (b : Byte) (tail : List Byte) : Statement (.cat7 x n b tail) := by
  intro h
  have h : tail.length = n.toNat := by simp_all [wellFormed, tailFits]
  exact ⟨_, _, rfl, by simp [encode, frameBytes, frameLength_headerByte, h]⟩

/-- The first two bytes of an instruction's encoding match the row of the opcode table that its mnemonic names. -/
def RowMatch.Statement (i : Instr) : Prop :=
  ∃ r ∈ opcodeTable, r.mnemonic = i.mnemonic ∧
    ∃ b0 b1 tl, encode i = b0 :: b1 :: tl ∧ r.matchesWord (decodeWord b0 b1) = true

theorem RowMatch.interval (x : Bool) (n : BitVec 4) (tail : List Byte) : Statement (.interval x n tail) :=
  ⟨⟨"INTERVAL", 0x70FF#16, 0x1081#16⟩, by simp [opcodeTable], rfl, _, _, _, rfl, by
    simp [OpcodeRow.matchesWord, decodeWord_header_subType]⟩

theorem RowMatch.distance (x : Bool) (n : BitVec 4) (tail : List Byte) : Statement (.distance x n tail) :=
  ⟨⟨"DISTANCE", 0x70FF#16, 0x1082#16⟩, by simp [opcodeTable], rfl, _, _, _, rfl, by
    simp [OpcodeRow.matchesWord, decodeWord_header_subType]⟩

theorem RowMatch.speedUnrecognized (x : Bool) (n : BitVec 4) (s : Byte) (tail : List Byte) : Statement (.speedUnrecognized x n s tail) :=
  ⟨⟨"SPEED_UNRECOGNIZED", 0x7000#16, 0x1000#16⟩, by simp [opcodeTable], rfl, _, _, _, rfl, by
    simp [OpcodeRow.matchesWord, decodeWord_header_category]⟩

theorem RowMatch.voltage (x : Bool) (n : BitVec 4) (b : Byte) (tail : List Byte) : Statement (.voltage x n b tail) :=
  ⟨⟨"VOLTAGE", 0x7000#16, 0x2000#16⟩, by simp [opcodeTable], rfl, _, _, _, rfl, by
    simp [OpcodeRow.matchesWord, decodeWord_header_category]⟩

theorem RowMatch.cat0 (x : Bool) (n : BitVec 4) (b : Byte) (tail : List Byte) : Statement (.cat0 x n b tail) :=
  ⟨⟨"CAT0", 0x7000#16, 0x0000#16⟩, by simp [opcodeTable], rfl, _, _, _, rfl, by
    simp [OpcodeRow.matchesWord, decodeWord_header_category]⟩

theorem RowMatch.cat3 (x : Bool) (n : BitVec 4) (b : Byte) (tail : List Byte) : Statement (.cat3 x n b tail) :=
  ⟨⟨"CAT3", 0x7000#16, 0x3000#16⟩, by simp [opcodeTable], rfl, _, _, _, rfl, by
    simp [OpcodeRow.matchesWord, decodeWord_header_category]⟩

theorem RowMatch.cat4 (x : Bool) (n : BitVec 4) (b : Byte) (tail : List Byte) : Statement (.cat4 x n b tail) :=
  ⟨⟨"CAT4", 0x7000#16, 0x4000#16⟩, by simp [opcodeTable], rfl, _, _, _, rfl, by
    simp [OpcodeRow.matchesWord, decodeWord_header_category]⟩

theorem RowMatch.cat5 (x : Bool) (n : BitVec 4) (b : Byte) (tail : List Byte) : Statement (.cat5 x n b tail) :=
  ⟨⟨"CAT5", 0x7000#16, 0x5000#16⟩, by simp [opcodeTable], rfl, _, _, _, rfl, by
    simp [OpcodeRow.matchesWord, decodeWord_header_category]⟩

theorem RowMatch.cat6 (x : Bool) (n : BitVec 4) (b : Byte) (tail : List Byte) : Statement (.cat6 x n b tail) :=
  ⟨⟨"CAT6", 0x7000#16, 0x6000#16⟩, by simp [opcodeTable], rfl, _, _, _, rfl, by
    simp [OpcodeRow.matchesWord, decodeWord_header_category]⟩

theorem RowMatch.cat7 (x : Bool) (n : BitVec 4) (b : Byte) (tail : List Byte) : Statement (.cat7 x n b tail) :=
  ⟨⟨"CAT7", 0x7000#16, 0x7000#16⟩, by simp [opcodeTable], rfl, _, _, _, rfl, by
    simp [OpcodeRow.matchesWord, decodeWord_header_category]⟩

end Sys2Proof.Laws
end

