-- ==== Sys2Proof/Laws/Realisation.lean ====
section
/-! SUPPORT. The permitted realisation: one lemma per field per operation, and what taking one byte in can do. -/

namespace Sys2Proof.Machine

@[simp] theorem Realised.tick_buf (h : Realised) : h.tick.buf = h.buf := rfl
@[simp] theorem Realised.tick_lastV (h : Realised) : h.tick.lastV = h.lastV := rfl
@[simp] theorem Realised.tick_idle (h : Realised) : h.tick.idle = min (h.idle + 1) (Config.tIn + 1) := rfl
@[simp] theorem Realised.tick_out (h : Realised) : h.tick.out = h.out := rfl

@[simp] theorem Realised.restart_buf (h : Realised) : h.restart.buf = h.buf := rfl
@[simp] theorem Realised.restart_lastV (h : Realised) : h.restart.lastV = true := rfl
@[simp] theorem Realised.restart_idle (h : Realised) : h.restart.idle = 0 := rfl
@[simp] theorem Realised.restart_out (h : Realised) : h.restart.out = h.out := rfl

@[simp] theorem Realised.takeReset_buf (h : Realised) : h.takeReset.buf = [] := rfl
@[simp] theorem Realised.takeReset_lastV (h : Realised) : h.takeReset.lastV = false := rfl
@[simp] theorem Realised.takeReset_idle (h : Realised) : h.takeReset.idle = h.idle := rfl
@[simp] theorem Realised.takeReset_out (h : Realised) : h.takeReset.out = h.out := rfl

/-- The stale test gives an emptied realisation, or the same one. -/
theorem Realised.dropStale_cases (h : Realised) :
    (h.buf ≠ [] ∧ h.idle > Config.tIn ∧ h.dropStale = { h with buf := [] }) ∨
      ((h.buf = [] ∨ h.idle ≤ Config.tIn) ∧ h.dropStale = h) := by
  unfold Realised.dropStale
  split <;> rename_i hc
  · exact .inl ⟨hc.1, hc.2, rfl⟩
  · exact .inr ⟨(Decidable.not_and_iff_not_or_not.mp hc).imp Decidable.not_not.mp Nat.le_of_not_lt, rfl⟩

/-- A byte either stays with the residual before it, or completes a frame, which leaves with its event. -/
theorem Realised.intakeByte_cases (h : Realised) (b : Byte) :
    (isResidual (h.buf ++ [b]) = true ∧ h.intakeByte b = { h with buf := h.buf ++ [b] }) ∨
      (isResidual (h.buf ++ [b]) = false ∧
        h.intakeByte b = { h with buf := [], out := h.out ++ (dispatchEventOf (h.buf ++ [b])).toList }) := by
  unfold Realised.intakeByte
  split <;> rename_i hc
  · exact .inl ⟨hc, rfl⟩
  · exact .inr ⟨by simpa using hc, rfl⟩

/-- Taking bytes in changes neither the validity nor the counter. -/
theorem Realised.foldl_intakeByte_lastV_idle (chunk : List Byte) (h : Realised) :
    (chunk.foldl Realised.intakeByte h).lastV = h.lastV ∧ (chunk.foldl Realised.intakeByte h).idle = h.idle := by
  induction chunk generalizing h with
  | nil => exact ⟨rfl, rfl⟩
  | cons b chunk ih =>
    rw [List.foldl_cons, (ih _).1, (ih _).2]
    rcases h.intakeByte_cases b with ⟨-, e⟩ | ⟨-, e⟩ <;> rw [e] <;> exact ⟨rfl, rfl⟩

/-- A chunk leaves a timestamp held and the counter at 0, whatever it holds. -/
@[simp] theorem Realised.feed_lastV (chunk : List Byte) (h : Realised) : (h.feed chunk).lastV = true := rfl
@[simp] theorem Realised.feed_idle (chunk : List Byte) (h : Realised) : (h.feed chunk).idle = 0 := rfl

end Sys2Proof.Machine
end

