-- ==== Sys2Proof/Tests/Slice0.lean ====
section
/-! SUPPORT. The model's own tests. Expected results come from 95_test_vectors.md (its sections are named) and from words
written out bit by bit from the opcode table's encodings; then, for each statement with hypotheses, a state and operands
that meet them, at the boundaries of its clauses. -/

namespace Sys2Proof.Tests

open Sys2Proof.Machine

/-- A state between events: the reset state with a buffer, a timestamp and the events presented. -/
def between (buf : List Byte) (lastT : Option Nat) (inputs : List Event) : State :=
  { State.reset with buf := buf, lastT := lastT, inputs := inputs }

/-- The next state of an outcome, if it is one. -/
def nextOf (o : Host.Outcome State Fault Refusal) : Option State :=
  match o with
  | .next t => some t
  | _ => none

/-- The frames `A`, `D` and `V` of 95_test_vectors.md. -/
def frameA : List Byte := [0x14#8, 0x81#8, 0x00#8, 0x07#8, 0x68#8, 0x7A#8]
def frameD : List Byte := [0x16#8, 0x82#8, 0x00#8, 0x3A#8, 0x6F#8, 0x1A#8, 0x15#8, 0x4E#8]
def frameV : List Byte := [0x22#8, 0x05#8, 0x3C#8, 0x1B#8]

/-! WellFormed: one ill-formed term for each check, which the check refuses. -/

theorem test_tail_longer_than_length_code_refused :
    wellFormed (.voltage false 2#4 0x05#8 [0x3C#8, 0x1B#8, 0x00#8]) = false := by decide

theorem test_tail_shorter_than_length_code_refused : wellFormed (.interval false 4#4 [0x00#8]) = false := by decide

theorem test_recognised_interval_subtype_refused : wellFormed (.speedUnrecognized false 0#4 0x81#8 []) = false := by
  decide

theorem test_recognised_distance_subtype_refused : wellFormed (.speedUnrecognized false 0#4 0x82#8 []) = false := by
  decide

/-! Decode: for every constructor a header and byte 1 written out bit by bit from the row's encoding. -/

/-- INTERVAL `X001NNNN10000001` with X = 1, N = 1. -/
theorem test_decode_interval : decode [0b10010001#8, 0b10000001#8, 0x10#8] = .ok (.interval true 1#4 [0x10#8], []) := by
  decide

/-- DISTANCE `X001NNNN10000010` with X = 0, N = 2, and a byte of the next frame after it. -/
theorem test_decode_distance : decode [0b00010010#8, 0b10000010#8, 0x00#8, 0x10#8, 0x22#8] =
    .ok (.distance false 2#4 [0x00#8, 0x10#8], [0x22#8]) := by decide

/-- SPEED_UNRECOGNIZED `X001NNNNSSSSSSSS` with S = 0x01: bit 7 of byte 1 counts (30_encoding.md R55). -/
theorem test_decode_speed_unrecognized : decode [0b00010010#8, 0b00000001#8, 0x00#8, 0x13#8] =
    .ok (.speedUnrecognized false 2#4 0x01#8 [0x00#8, 0x13#8], []) := by decide

/-- VOLTAGE `X010NNNNBBBBBBBB`, 2 bytes, byte 1 the checksum. -/
theorem test_decode_voltage : decode [0b10100000#8, 0b10100000#8] = .ok (.voltage true 0#4 0xA0#8 [], []) := by decide

/-- CAT0 `X000NNNN…`: a byte 1 of 0x81 does not rescue the frame (42_demux.md R90). -/
theorem test_decode_cat0 : decode [0b00000010#8, 0x81#8, 0x00#8, 0x03#8] =
    .ok (.cat0 false 2#4 0x81#8 [0x00#8, 0x03#8], []) := by decide

theorem test_decode_cat3 : decode [0b00110000#8, 0b00110000#8] = .ok (.cat3 false 0#4 0x30#8 [], []) := by decide

theorem test_decode_cat4 : decode [0b01000010#8, 0x81#8, 0x00#8, 0x43#8] =
    .ok (.cat4 false 2#4 0x81#8 [0x00#8, 0x43#8], []) := by decide

theorem test_decode_cat5 : decode [0b01010010#8, 0x82#8, 0x00#8, 0x50#8] =
    .ok (.cat5 false 2#4 0x82#8 [0x00#8, 0x50#8], []) := by decide

theorem test_decode_cat6 : decode [0b01100010#8, 0x81#8, 0x00#8, 0x63#8] =
    .ok (.cat6 false 2#4 0x81#8 [0x00#8, 0x63#8], []) := by decide

theorem test_decode_cat7 : decode [0b01110010#8, 0x81#8, 0x00#8, 0x73#8] =
    .ok (.cat7 false 2#4 0x81#8 [0x00#8, 0x73#8], []) := by decide

theorem test_decode_rejects_empty : decode [] = .error .noHeader := by decide

theorem test_decode_rejects_short_frame : decode [0x14#8, 0x81#8, 0x00#8] = .error .incompleteFrame := by decide

/-- Two rows of the opcode table can match one W only if they are INTERVAL or DISTANCE and SPEED_UNRECOGNIZED (R52). -/
theorem test_only_speed_rows_overlap :
    ((opcodeTable.product opcodeTable).filter fun p => p.1 != p.2 &&
      (p.1.pattern ^^^ p.2.pattern) &&& (p.1.mask &&& p.2.mask) == 0#16).map
        (fun p => (p.1.mnemonic, p.2.mnemonic)) =
      [("INTERVAL", "SPEED_UNRECOGNIZED"), ("DISTANCE", "SPEED_UNRECOGNIZED"),
       ("SPEED_UNRECOGNIZED", "INTERVAL"), ("SPEED_UNRECOGNIZED", "DISTANCE")] := by decide

/-- The table's match words, in the table's order, decode to their own rows. -/
theorem test_table_words_decode_to_their_rows :
    (opcodeTable.map fun r => (decodeTableWord 16 r.pattern.toNat).map Instr.mnemonic) =
      opcodeTable.map fun r => some r.mnemonic := by decide

/-- From reset, the step after withFetchWord runs the word's own type: INTERVAL, DISTANCE and VOLTAGE give their event and
the other seven rows give their drop. -/
theorem test_table_words_run_after_reset :
    (opcodeTable.map fun r => (nextOf (step (State.reset.withFetchWord 16 r.pattern.toNat))).map
      fun t => (t.out.map (·.kind), t.trace.map TraceEvent.code, t.buf)) =
      [some ([.interval], [], []), some ([.distance], [], []), some ([], [3], []), some ([.voltage], [], []),
       some ([], [2], []), some ([], [2], []), some ([], [2], []), some ([], [2], []), some ([], [2], []),
       some ([], [2], [])] := by decide

/-! VALIDATE (95_test_vectors.md 2.2). -/

theorem test_validate_ignores_checksum_bit7 :
    validate [0x14#8, 0x81#8, 0x00#8, 0x07#8, 0x68#8, 0xFA#8] = true := by decide

theorem test_validate_catches_checksum_bit0 :
    validate [0x14#8, 0x81#8, 0x00#8, 0x07#8, 0x68#8, 0x7B#8] = false := by decide

/-! The message types: one step on one frame (95_test_vectors.md 2.3). -/

/-- The output kinds, the trace codes and the buffer after one FEED of `chunk` from reset. -/
def fed (chunk : List Byte) : Option (List Kind × List Nat × List Byte) :=
  (nextOf (step (between [] none [.feed 0 chunk]))).map fun t =>
    (t.out.map (·.kind), t.trace.map TraceEvent.code, t.buf)

theorem test_interval_three_bytes : fed [0x11#8, 0x81#8, 0x10#8] = some ([.interval], [], []) := by decide

theorem test_distance_six_bytes : fed [0x14#8, 0x82#8, 0x00#8, 0x07#8, 0x68#8, 0x79#8] = some ([.distance], [], []) := by
  decide

theorem test_voltage_two_bytes : fed [0x20#8, 0xA0#8] = some ([.voltage], [], []) := by decide

theorem test_speed_unrecognized_two_bytes : fed [0x10#8, 0x90#8] = some ([], [3], []) := by decide

theorem test_cat0_all_zero : fed [0x00#8, 0x00#8] = some ([], [2], []) := by decide

theorem test_cat3 : fed [0x30#8, 0x30#8] = some ([], [2], []) := by decide

theorem test_cat4 : fed [0x42#8, 0x81#8, 0x00#8, 0x43#8] = some ([], [2], []) := by decide

theorem test_cat5 : fed [0x52#8, 0x82#8, 0x00#8, 0x50#8] = some ([], [2], []) := by decide

theorem test_cat6 : fed [0x62#8, 0x81#8, 0x00#8, 0x63#8] = some ([], [2], []) := by decide

theorem test_cat7 : fed [0x72#8, 0x81#8, 0x00#8, 0x73#8] = some ([], [2], []) := by decide

/-! FEED and RESET (95_test_vectors.md 2.4, 2.5). -/

/-- F4: an elapsed time of exactly 60 is not stale. -/
theorem test_feed_boundary_keeps :
    nextOf (step (between [0x14#8, 0x81#8] (some 1000) [.feed 1060 [0x00#8, 0x07#8, 0x68#8, 0x7A#8]])) =
      some { between [] (some 1060) [] with out := [⟨.interval, 6, frameA⟩] } := by decide

/-- F5: 61 evicts; the tail is misread as a 2-byte frame and then waits. -/
theorem test_feed_stale_evicts :
    nextOf (step (between [0x14#8, 0x81#8] (some 1000) [.feed 1061 [0x00#8, 0x07#8, 0x68#8, 0x7A#8]])) =
      some { between [0x68#8, 0x7A#8] (some 1061) [] with
        trace := [.evict 2, .drop .checksum [0x00#8, 0x07#8]] } := by decide

/-- F6: several frames in one FEED, in order. -/
theorem test_feed_several_frames :
    nextOf (step (between [] none [.feed 0 (frameA ++ frameA ++ frameV ++ frameD)])) =
      some { between [] (some 0) [] with out :=
        [⟨.interval, 6, frameA⟩, ⟨.interval, 6, frameA⟩, ⟨.voltage, 4, frameV⟩, ⟨.distance, 8, frameD⟩] } := by decide

/-- F9: a backward time is refused. -/
theorem test_feed_backward_refused :
    nextOf (step (between [0x14#8, 0x81#8] (some 50) [.feed 40 [0x00#8]])) =
      some { between [0x14#8, 0x81#8] (some 50) [] with refused := true } := by decide

/-- P4, line 1: a corrupted length code; a wrong cut passes the checksum by chance (70_reset_and_hazards.md R118). -/
theorem test_feed_desynchronised :
    fed ([0x17#8, 0x81#8, 0x00#8, 0x07#8, 0x68#8, 0x7A#8] ++ frameA ++ frameV ++ frameA) =
      some ([], [1, 2, 1], [0x68#8, 0x7A#8]) := by decide

/-- C2: the source's literal 6-byte example with header 0x15 waits for a seventh byte. -/
theorem test_feed_literal_example_waits :
    fed [0x15#8, 0x81#8, 0x00#8, 0x07#8, 0x68#8, 0x7B#8] =
      some ([], [], [0x15#8, 0x81#8, 0x00#8, 0x07#8, 0x68#8, 0x7B#8]) := by decide

theorem test_reset_clears :
    nextOf (step (between [0x14#8, 0x81#8, 0x00#8] (some 0) [.reset])) = some (between [] none []) := by decide

/-! Witnesses: the hypotheses of each statement are met together. -/

theorem witness_DecodeOfEncode : wellFormed (.speedUnrecognized true 15#4 0x01#8 (List.replicate 15 0#8)) = true := by
  decide

/-- Meets EncodeOfDecode, DecodedType and, with header 0x12, FrameLength. -/
theorem witness_decode_succeeds :
    decode [0x12#8, 0x82#8, 0x00#8, 0x10#8, 0x7F#8] = .ok (.distance false 2#4 [0x00#8, 0x10#8], [0x7F#8]) := by decide

/-- Meets SingleBitFlip in each clause: a data bit, bit 7, a length-code bit and the header bit beside it. -/
theorem witness_SingleBitFlip : wholeFrame frameA = true ∧ validate frameA = true ∧ 0 < frameA.length ∧
    ¬((5 : Nat) = 0 ∧ 6 < 4) ∧ (6 ≤ 6) ∧ ¬((0 : Nat) = 0 ∧ 4 < 4) ∧ ((0 : Nat) = 0 ∧ 3 < 4) := by decide

theorem witness_EvenFlips : frameA.length = [0x14#8, 0x81#8, 0x10#8, 0x17#8, 0x68#8, 0x7A#8].length ∧
    validate frameA = true ∧ [0x11#8, 0x81#8, 0x10#8].Perm [0x81#8, 0x10#8, 0x11#8] := by decide

theorem witness_HeaderBitSeven : wholeFrame (0x94#8 :: [0x81#8, 0x00#8, 0x07#8, 0x68#8, 0x7A#8]) = true := by decide

/-- Meets IntervalEmits and DistanceEmits, the 3-byte clause included: the shortest valid frame of each. -/
theorem witness_recognised_speed : wellFormed (.interval false 1#4 [0x10#8]) = true ∧
    validate (headerByte false 1#3 1#4 :: 0x81#8 :: [0x10#8]) = true ∧
    wellFormed (.distance true 1#4 [0x13#8]) = true ∧
    validate (headerByte true 1#3 1#4 :: 0x82#8 :: [0x13#8]) = true := by decide

theorem witness_VoltageEmits : wellFormed (.voltage true 0#4 0xA0#8 []) = true := by decide

theorem witness_SpeedUnrecognized : wellFormed (.speedUnrecognized false 2#4 0x83#8 [0x00#8, 0x11#8]) = true ∧
    validate [headerByte false 1#3 0#4, 0x10#8] = true ∧ validate [headerByte true 1#3 0#4, 0x90#8] = true := by decide

theorem witness_UnrecognizedCategories : tailFits 15#4 (List.replicate 15 0x7F#8) = true := by decide

theorem witness_MessageTypesOnlyAppend :
    exec (.cat0 false 0#4 0x00#8 []) State.reset =
      .next { State.reset with trace := [.drop .category [0x00#8, 0x00#8]] } := rfl

/-- Meets DispatchFollowsTheTypeMap in both cases, and EachCandidateGivesOneEvent with an event and with the codes 2 and 1
(code 3 in the next theorem). -/
theorem witness_DispatchFollows : wholeFrame frameV = true ∧ validate frameV = true ∧
    wholeFrame [0x30#8, 0x30#8] = true ∧ validate [0x30#8, 0x30#8] = true ∧
    wholeFrame [0x30#8, 0x31#8] = true ∧ validate [0x30#8, 0x31#8] = false := by decide

/-- Meets each clause of CategoryThenSubTypeSelectTheOutput: C = 1 with byte 1 0x81, 0x82 and neither (0x01 and, one past
them, 0x83); C = 2; and the other categories at their ends, 0, 3 and 7. -/
theorem witness_CategoryThenSubType : ∀ f ∈ [frameA, frameD, [0x12#8, 0x01#8, 0x00#8, 0x13#8],
    [0x92#8, 0x83#8, 0x00#8, 0x11#8], frameV, [0x00#8, 0x00#8], [0x30#8, 0x30#8], [0x72#8, 0x81#8, 0x00#8, 0x73#8]],
    wholeFrame f = true ∧ validate f = true := by decide

/-- Meets both clauses of StepRunsTheDecodedInstruction. -/
theorem witness_StepRuns : ({ between frameV none [] with ok := true } : State).ok = true ∧
    candidate { between frameV none [] with ok := true } = .ok frameV ∧
    decode frameV = .ok (.voltage false 2#4 0x05#8 [0x3C#8, 0x1B#8], []) ∧
    candidate (between (frameV ++ frameA) none []) = .ok frameV ∧ validate frameV = true := ⟨rfl, rfl, rfl, rfl, rfl⟩

/-- A stamped residual awaiting a FEED on time, at the last time that keeps it. Meets FeedTestsThenAppends, StaleTest
(second and third clause), FeedRecords, Buffer, NoEventStops, Outputs, Dispatched and StepKeepsInv through its next
state. -/
def keeping : State := between [0x14#8, 0x81#8] (some 1000) [.feed 1060 [0x00#8, 0x07#8, 0x68#8, 0x7A#8]]

theorem witness_keeping : awaits (.feed 1060 [0x00#8, 0x07#8, 0x68#8, 0x7A#8]) [] keeping ∧ onTime 1060 keeping ∧
    keeping.lastV = true ∧ keeping.lastT = some 1000 ∧ (1000 : Nat) ≤ 1060 ∧ 1060 - 1000 ≤ 60 ∧
    evictsAt 1060 keeping = false :=
  ⟨⟨rfl, rfl⟩, by intro t h; cases h; decide, rfl, rfl, by decide, by decide, by decide⟩

theorem witness_keeping_inv : keeping.Inv :=
  ⟨rfl, by decide, fun _ => rfl, by simp [keeping, between, State.reset], by simp [keeping, between, State.reset]⟩

theorem witness_keeping_steps : ∃ t, step keeping = .next t ∧ t.out = keeping.out ++ [⟨.interval, 6, frameA⟩] :=
  ⟨{ between [] (some 1060) [] with out := [⟨.interval, 6, frameA⟩] }, rfl, rfl⟩

/-- The same one ms later: stale. Meets StaleTest's first clause and EvictedBytes, with an emptied state beside it. -/
def evicting : State := between [0x14#8, 0x81#8] (some 1000) [.feed 1061 frameA]

theorem witness_evicting : awaits (.feed 1061 frameA) [] evicting ∧ onTime 1061 evicting ∧ evicting.buf ≠ [] ∧
    evicting.lastT = some 1000 ∧ 1061 - 1000 > 60 ∧ evictsAt 1061 evicting = true ∧
    awaits (.feed 1061 frameA) [] (between [] none [.feed 1061 frameA]) ∧
    onTime 1061 (between [] none [.feed 1061 frameA]) ∧ evicting.out = (between [] none [.feed 1061 frameA]).out :=
  ⟨⟨rfl, rfl⟩, by intro t h; cases h; decide, by decide, rfl, by decide, by decide, ⟨rfl, rfl⟩,
    (by intro t h; cases h), rfl⟩

/-- An empty buffer with an old timestamp: StaleTest's third clause by its first case (vector F3). -/
theorem witness_empty_never_evicted :
    awaits (.feed 1000 [0x14#8, 0x81#8]) [] (between [] (some 0) [.feed 1000 [0x14#8, 0x81#8]]) ∧
    nextOf (step (between [] (some 0) [.feed 1000 [0x14#8, 0x81#8]])) =
      some (between [0x14#8, 0x81#8] (some 1000) []) := ⟨⟨rfl, rfl⟩, by decide⟩

theorem witness_InvalidCandidate :
    candidate (between [0x30#8, 0x31#8, 0x22#8] none []) = .ok [0x30#8, 0x31#8] ∧
    validate [0x30#8, 0x31#8] = false := ⟨rfl, by decide⟩

theorem witness_PartialFrameWaits : awaits (.feed 0 [0x7F#8]) [] (between [] none [.feed 0 [0x7F#8]]) ∧
    onTime 0 (between [] none [.feed 0 [0x7F#8]]) ∧
    isResidual (keptBytes 0 (between [] none [.feed 0 [0x7F#8]]) ++ [0x7F#8]) = true :=
  ⟨⟨rfl, rfl⟩, (by intro t h; cases h), by decide⟩

/-- Meets BackwardFeed and the second clause of RefusedMark, one ms early. -/
theorem witness_BackwardFeed : awaits (.feed 49 []) [] (between [] (some 50) [.feed 49 []]) ∧
    (between [] (some 50) [.feed 49 []]).lastT = some 50 ∧ (49 : Nat) < 50 ∧
    nextOf (step (between [] (some 50) [.feed 49 []])) = some { between [] (some 50) [] with refused := true } :=
  ⟨⟨rfl, rfl⟩, rfl, by decide, by decide⟩

/-- A chunk that completes a kept INTERVAL frame, then an invalid 2-byte frame, then one more byte. -/
def twoFrames : List Byte := [0x00#8, 0x07#8, 0x68#8, 0x7A#8, 0x30#8, 0x31#8, 0x22#8]

/-- Meets FeedDispatchesExactlyItsFrames: a kept residual, two frames, and a new residual. -/
theorem witness_FeedDispatches :
    awaits (.feed 1060 twoFrames) [] (between [0x14#8, 0x81#8] (some 1000) [.feed 1060 twoFrames]) ∧
    onTime 1060 (between [0x14#8, 0x81#8] (some 1000) [.feed 1060 twoFrames]) ∧
    (between [0x14#8, 0x81#8] (some 1000) [.feed 1060 twoFrames]).lastV = true ∧
    CutsInto (keptBytes 1060 (between [0x14#8, 0x81#8] (some 1000) [.feed 1060 twoFrames]) ++ twoFrames)
      [frameA, [0x30#8, 0x31#8]] [0x22#8] :=
  ⟨⟨rfl, rfl⟩, (by intro t h; cases h; decide), rfl, by decide, by decide, by decide⟩

theorem witness_UnstampedBuffer : awaits (.feed 0 []) [] (between [0x14#8] none [.feed 0 []]) ∧
    (between [0x14#8] none [.feed 0 []]).buf ≠ [] ∧ (between [0x14#8] none [.feed 0 []]).lastV = false :=
  ⟨⟨rfl, rfl⟩, by decide, rfl⟩

theorem witness_EmptyFeed : (between [0x14#8] (some 10) [.feed 71 []]).Inv ∧
    awaits (.feed 71 []) [] (between [0x14#8] (some 10) [.feed 71 []]) ∧
    onTime 71 (between [0x14#8] (some 10) [.feed 71 []]) :=
  ⟨⟨rfl, by decide, fun _ => rfl, by simp [between, State.reset], by simp [between, State.reset]⟩, ⟨rfl, rfl⟩,
    by intro t h; cases h; decide⟩

theorem witness_SplittingAChunk : awaits (.feed 5 ([0x14#8, 0x81#8] ++ [0x00#8])) []
    (between [] none [.feed 5 [0x14#8, 0x81#8, 0x00#8]]) := ⟨rfl, rfl⟩

/-- Meets Fragmentation with three chunks, the middle one empty, each exactly 60 ms after the last. -/
theorem witness_Fragmentation :
    (between [] none [.feed 0 [0x20#8], .feed 60 [], .feed 120 [0x20#8]]).ok = false ∧
    (between [] none [.feed 0 [0x20#8], .feed 60 [], .feed 120 [0x20#8]]).inputs =
      .feed 0 [0x20#8] :: ([(60, []), (120, [0x20#8])].map fun p => Event.feed p.1 p.2) ++ [] ∧
    onTime 0 (between [] none [.feed 0 [0x20#8], .feed 60 [], .feed 120 [0x20#8]]) ∧
    List.IsChain (fun a b => a ≤ b ∧ b - a ≤ 60) (0 :: ([(60, []), (120, [0x20#8])] : List (Nat × List Byte)).map Prod.fst) :=
  ⟨rfl, rfl, (by intro t h; cases h), by decide⟩

theorem witness_EagerEviction : (1061 : Nat) ≤ 1100 ∧ evictStale 1061 (between [0x14#8, 0x81#8] (some 1000) []) =
    .next { between [] (some 1000) [] with trace := [.evict 2] } := ⟨by decide, rfl⟩

theorem witness_NoEvent : State.reset.ok = false ∧ State.reset.inputs = [] := ⟨rfl, rfl⟩

/-- Meets ResetEvent, RunStarts and the RESET clause of Buffer. -/
theorem witness_ResetEvent : awaits .reset [] (between frameV (some 3) [.reset]) ∧
    nextOf (step (between frameV (some 3) [.reset])) = some (between [] none []) := ⟨⟨rfl, rfl⟩, by decide⟩

/-- Meets the third clause of Buffer at its bound: the longest residual. -/
theorem witness_Buffer : isResidual (between (0x1F#8 :: List.replicate 15 0#8) (some 0) []).buf = true := by decide

/-- Meets IdleCounterRealisation with a residual in the buffer and the counter saturated. -/
theorem witness_IdleCounter : evicting.Inv ∧
    Realises 1061 { buf := [0x14#8, 0x81#8], lastV := true, idle := 61, out := [] } evicting ∧
    awaits (.feed 1061 frameA) [] evicting :=
  ⟨⟨rfl, by decide, fun _ => rfl, by simp [evicting, between, State.reset], by simp [evicting, between, State.reset]⟩,
    ⟨rfl, rfl, rfl, by intro t h; cases h; decide⟩, ⟨rfl, rfl⟩⟩

/-- Meets the RESET clause of IdleCounterRealisation, from a residual with the counter saturated. -/
theorem witness_IdleCounterReset : (between [0x14#8, 0x81#8] (some 1000) [.reset]).Inv ∧
    Realises 1061 { buf := [0x14#8, 0x81#8], lastV := true, idle := 61, out := [] }
      (between [0x14#8, 0x81#8] (some 1000) [.reset]) ∧
    awaits .reset [] (between [0x14#8, 0x81#8] (some 1000) [.reset]) :=
  ⟨⟨rfl, by decide, fun _ => rfl, by simp [between, State.reset], by simp [between, State.reset]⟩,
    ⟨rfl, rfl, rfl, by intro t h; cases h; decide⟩, ⟨rfl, rfl⟩⟩

/-- Meets SerialIntake at its bound: 16 bytes of a 17-byte frame, and the byte that completes it. -/
theorem witness_SerialIntake : isResidual (0x1F#8 :: List.replicate 15 0#8) = true ∧
    isResidual ((0x1F#8 :: List.replicate 15 0#8) ++ [0#8]) = false := by decide

end Sys2Proof.Tests
end

section
/-! PROOFS. What one whole frame gives: the masks of the opcode table against DISPATCH, and the records of a list of
frames. -/

namespace Sys2Proof.Machine

/-- The records that the whole frames `fs` leave behind, in order: each gives its dispatch event or its drop. -/
def recordFrames (fs : List (List Byte)) (s : State) : State :=
  { s with out := s.out ++ fs.filterMap dispatchEventOf, trace := s.trace ++ fs.filterMap dropOf }

@[simp] theorem recordFrames_buf (fs : List (List Byte)) (s : State) : (recordFrames fs s).buf = s.buf := rfl
@[simp] theorem recordFrames_lastT (fs : List (List Byte)) (s : State) : (recordFrames fs s).lastT = s.lastT := rfl
@[simp] theorem recordFrames_ok (fs : List (List Byte)) (s : State) : (recordFrames fs s).ok = s.ok := rfl
@[simp] theorem recordFrames_refused (fs : List (List Byte)) (s : State) :
    (recordFrames fs s).refused = s.refused := rfl
@[simp] theorem recordFrames_inputs (fs : List (List Byte)) (s : State) :
    (recordFrames fs s).inputs = s.inputs := rfl
@[simp] theorem recordFrames_out (fs : List (List Byte)) (s : State) :
    (recordFrames fs s).out = s.out ++ fs.filterMap dispatchEventOf := rfl
@[simp] theorem recordFrames_trace (fs : List (List Byte)) (s : State) :
    (recordFrames fs s).trace = s.trace ++ fs.filterMap dropOf := rfl

@[simp] theorem recordFrames_nil (s : State) : recordFrames [] s = s := by
  simp [recordFrames]

theorem recordFrames_cons (f : List Byte) (fs : List (List Byte)) (s : State) :
    recordFrames (f :: fs) s = recordFrames fs (recordFrames [f] s) := by
  simp [recordFrames, List.append_assoc, ← List.filterMap_append]

/-- The low byte of a word under the Speed rows' mask is byte 1 (30_encoding.md R51). -/
theorem subTypeWord_setWidth (c : BitVec 3) (b1 : Byte) :
    (c.setWidth 16 <<< 12 ||| b1.setWidth 16).setWidth 8 = b1 := by
  ext k hk
  simp

/-- The bits 14:12 of a word under the Speed rows' mask are the category (30_encoding.md R51). -/
theorem subTypeWord_extractLsb' (c : BitVec 3) (b1 : Byte) :
    (c.setWidth 16 <<< 12 ||| b1.setWidth 16).extractLsb' 12 3 = c := by
  ext k hk
  interval_cases k <;> simp

/-- A word under the Speed rows' mask is made of one category and one byte 1 only (30_encoding.md R51, R52). -/
theorem subTypeWord_inj {c d : BitVec 3} {b k : Byte} :
    c.setWidth 16 <<< 12 ||| b.setWidth 16 = d.setWidth 16 <<< 12 ||| k.setWidth 16 ↔ c = d ∧ b = k := by
  constructor
  · intro h
    have hc := subTypeWord_extractLsb' c b
    have hb := subTypeWord_setWidth c b
    rw [h, subTypeWord_extractLsb'] at hc
    rw [h, subTypeWord_setWidth] at hb
    exact ⟨hc.symm, hb.symm⟩
  · rintro ⟨rfl, rfl⟩
    rfl

/-- The word of a Speed row's mask is INTERVAL's exactly for C = 1 and byte 1 = 0x81 (30_encoding.md R52). -/
theorem subTypeWord_eq_interval_iff (c : BitVec 3) (b1 : Byte) :
    c.setWidth 16 <<< 12 ||| b1.setWidth 16 = 0x1081#16 ↔ c = 1#3 ∧ b1 = 0x81#8 :=
  subTypeWord_inj (d := 1#3) (k := 0x81#8)

/-- The word of a Speed row's mask is DISTANCE's exactly for C = 1 and byte 1 = 0x82 (30_encoding.md R52). -/
theorem subTypeWord_eq_distance_iff (c : BitVec 3) (b1 : Byte) :
    c.setWidth 16 <<< 12 ||| b1.setWidth 16 = 0x1082#16 ↔ c = 1#3 ∧ b1 = 0x82#8 :=
  subTypeWord_inj (d := 1#3) (k := 0x82#8)

/-- The word of the category mask is the Speed row's exactly for C = 1 (30_encoding.md R52). -/
theorem categoryWord_eq_speed_iff (c : BitVec 3) : c.setWidth 16 <<< 12 = 0x1000#16 ↔ c = 1#3 := by
  revert c; decide

/-- The word of the category mask is VOLTAGE's exactly for C = 2 (30_encoding.md R52). -/
theorem categoryWord_eq_voltage_iff (c : BitVec 3) : c.setWidth 16 <<< 12 = 0x2000#16 ↔ c = 2#3 := by
  revert c; decide

/-- A frame whose XOR7 is not 0 gives no event, and is dropped for its checksum. -/
theorem recordFrames_invalid {f : List Byte} (hw : wholeFrame f = true) (hv : validate f = false) (s : State) :
    recordFrames [f] s = dropCandidate .checksum f s := by
  obtain ⟨b0, b1, tail, rfl, -⟩ := wholeFrame_cases hw
  have hx := (validate_eq_false_iff _).mp hv
  have he : dispatchEventOf (b0 :: b1 :: tail) = none := if_pos hx
  have hd : dropOf (b0 :: b1 :: tail) = some (.drop .checksum (b0 :: b1 :: tail)) := if_pos hx
  simp [recordFrames, dropCandidate, record, he, hd]

/-- The dispatch event of a valid frame, by its header's category and its byte 1. -/
theorem dispatchEventOf_header {x : Bool} {c : BitVec 3} {n : BitVec 4} {b1 : Byte} {tail : List Byte}
    (hv : xor7 (headerByte x c n :: b1 :: tail) = 0#8) :
    dispatchEventOf (headerByte x c n :: b1 :: tail) =
      if c = 1#3 ∧ b1 = 0x81#8 then some ⟨.interval, tail.length + 2, headerByte x c n :: b1 :: tail⟩
      else if c = 1#3 ∧ b1 = 0x82#8 then some ⟨.distance, tail.length + 2, headerByte x c n :: b1 :: tail⟩
      else if c = 2#3 then some ⟨.voltage, tail.length + 2, headerByte x c n :: b1 :: tail⟩
      else none := by
  simp only [dispatchEventOf, hv, decodeWord_header_subType, decodeWord_header_category, subTypeWord_eq_interval_iff,
    subTypeWord_eq_distance_iff, categoryWord_eq_voltage_iff]
  rfl

/-- The drop of a valid frame, by its header's category and its byte 1. -/
theorem dropOf_header {x : Bool} {c : BitVec 3} {n : BitVec 4} {b1 : Byte} {tail : List Byte}
    (hv : xor7 (headerByte x c n :: b1 :: tail) = 0#8) :
    dropOf (headerByte x c n :: b1 :: tail) =
      if c = 1#3 ∧ b1 = 0x81#8 then none
      else if c = 1#3 ∧ b1 = 0x82#8 then none
      else if c = 1#3 then some (.drop .subtype (headerByte x c n :: b1 :: tail))
      else if c = 2#3 then none
      else some (.drop .category (headerByte x c n :: b1 :: tail)) := by
  simp only [dropOf, hv, decodeWord_header_subType, decodeWord_header_category, subTypeWord_eq_interval_iff,
    subTypeWord_eq_distance_iff, categoryWord_eq_speed_iff, categoryWord_eq_voltage_iff]
  rfl

/-- The routed type's meaning leaves exactly the record that the masks of R52 give (42_demux.md R84 to R90). -/
theorem exec_routeType {x : Bool} {c : BitVec 3} {n : BitVec 4} {b1 : Byte} {tail : List Byte}
    (hv : xor7 (headerByte x c n :: b1 :: tail) = 0#8) (s : State) :
    exec (routeType x c n b1 tail) s = .next (recordFrames [headerByte x c n :: b1 :: tail] s) := by
  have he := dispatchEventOf_header hv
  have hd := dropOf_header hv
  simp only [recordFrames, List.filterMap_cons, he, hd]
  rcases category_cases c with rfl | rfl | rfl | rfl | rfl | rfl | rfl | rfl
  case inr.inl =>
    -- C = 1: byte 1 decides (42_demux.md R85)
    by_cases h1 : b1 = 0x81#8
    · subst h1
      simp [exec, execInterval, emit, encode, frameBytes]
    · by_cases h2 : b1 = 0x82#8
      · subst h2
        simp [exec, execDistance, emit, encode, frameBytes]
      · rw [routeType_speedUnrecognized x n b1 tail h1 h2]
        simp [exec, execSpeedUnrecognized, dropCandidate, record, encode, frameBytes, h1, h2]
  all_goals simp [exec, execVoltage, execCat0, execCat3, execCat4, execCat5, execCat6, execCat7, dropCandidate, emit,
    record, encode, frameBytes]

/-- DISPATCH of a valid whole frame leaves exactly its record (42_demux.md R83). -/
theorem dispatch_valid {f : List Byte} (hw : wholeFrame f = true) (hv : validate f = true) (s : State) :
    dispatch f s = .next (recordFrames [f] s) := by
  obtain ⟨b0, b1, tail, rfl, ht⟩ := wholeFrame_cases hw
  have hx := (validate_iff _).mp hv
  rw [← headerByte_fields b0] at hx
  rw [dispatch_wholeFrame s ht, exec_routeType hx, headerByte_fields]

/-- VALIDATE, DISPATCH or the drop, and Consume of a whole candidate: it leaves the buffer, its record stays
(40_assembler.md R68, R69). -/
theorem finishCandidate_judge {f : List Byte} (hw : wholeFrame f = true) (s : State) :
    finishCandidate f (judge f s) = .next (recordFrames [f] { s with buf := s.buf.drop f.length, ok := false }) := by
  cases hv : validate f with
  | true => simp [finishCandidate, hv, dispatch_valid hw hv]; rfl
  | false =>
    rw [recordFrames_invalid hw hv]
    simp [finishCandidate, hv]; rfl

/-- A dispatch event is of a valid frame, and carries that frame and its length (42_demux.md R91). -/
theorem dispatchEventOf_eq_some {f : List Byte} {e : DispatchEvent} (h : dispatchEventOf f = some e) :
    xor7 f = 0#8 ∧ e.frame = f ∧ e.len = f.length := by
  unfold dispatchEventOf at h
  split at h
  · grind
  · cases h

/-- A frame's trace entry is a drop of that frame (60_exceptions.md R95). -/
theorem dropOf_eq_some {f : List Byte} {d : TraceEvent} (h : dropOf f = some d) : ∃ c, d = .drop c f := by
  unfold dropOf at h
  split at h
  · grind
  · cases h

/-- The event of a whole frame is sound (42_demux.md R91, R93). -/
theorem soundEvent_of_wholeFrame {f : List Byte} {e : DispatchEvent} (hw : wholeFrame f = true)
    (h : dispatchEventOf f = some e) : soundEvent e := by
  obtain ⟨-, rfl, -⟩ := dispatchEventOf_eq_some h
  exact ⟨hw, h⟩

/-- The drop of a whole frame is sound (60_exceptions.md R95). -/
theorem soundTrace_of_wholeFrame {f : List Byte} {d : TraceEvent} (hw : wholeFrame f = true)
    (h : dropOf f = some d) : soundTrace d := by
  obtain ⟨c, rfl⟩ := dropOf_eq_some h
  exact ⟨hw, h⟩

end Sys2Proof.Machine
end

section
/-! PROOFS. Residuals and cuts: how a byte sequence grows into whole frames and a residual, and the loop on a cut
buffer. -/

namespace Sys2Proof.Machine

/-- A residual of a frame that may be 17 bytes long has at most 16 (10_state.md R19). -/
theorem length_le_of_isResidual {r : List Byte} (h : isResidual r = true) : r.length ≤ Config.residualMax := by
  cases r with
  | nil => simp
  | cons b0 r =>
    have hl := frameLength_le b0
    have hr : (b0 :: r).length < frameLength b0 := of_decide_eq_true h
    simp only [Config.residualMax]; omega

/-- The byte after a residual that leaves no residual completes a whole frame (40_assembler.md R73). -/
theorem wholeFrame_snoc {r : List Byte} {b : Byte} (hr : isResidual r = true) (h : isResidual (r ++ [b]) = false) :
    wholeFrame (r ++ [b]) = true := by
  cases r with
  | nil =>
    have h2 := two_le_frameLength b
    have h1 : ¬ [b].length < frameLength b := of_decide_eq_false h
    simp only [List.length_singleton] at h1; omega
  | cons b0 r =>
    have hr : (b0 :: r).length < frameLength b0 := of_decide_eq_true hr
    have h : ¬ (b0 :: (r ++ [b])).length < frameLength b0 := of_decide_eq_false h
    simp only [List.length_cons, List.length_append, List.length_nil] at hr h
    simp [wholeFrame]; omega

theorem CutsInto.wholeFrame_of_mem {p r : List Byte} {fs : List (List Byte)} (h : CutsInto p fs r) {f : List Byte}
    (hf : f ∈ fs) : wholeFrame f = true :=
  h.2.1 f hf

theorem CutsInto.residual {p r : List Byte} {fs : List (List Byte)} (h : CutsInto p fs r) :
    isResidual r = true :=
  h.2.2

/-- A residual is its own cut, into no frame. -/
theorem cutsInto_of_isResidual {r : List Byte} (h : isResidual r = true) : CutsInto r [] r :=
  ⟨rfl, by simp, h⟩

/-- One more byte, which the residual waits with. -/
theorem CutsInto.snoc_residual {p r : List Byte} {fs : List (List Byte)} {b : Byte} (h : CutsInto p fs r)
    (hr : isResidual (r ++ [b]) = true) : CutsInto (p ++ [b]) fs (r ++ [b]) := by
  obtain ⟨rfl, hfs, -⟩ := h
  exact ⟨by simp, hfs, hr⟩

/-- One more byte, which completes the residual to a frame. -/
theorem CutsInto.snoc_frame {p r : List Byte} {fs : List (List Byte)} {b : Byte} (h : CutsInto p fs r)
    (hr : isResidual (r ++ [b]) = false) : CutsInto (p ++ [b]) (fs ++ [r ++ [b]]) [] := by
  obtain ⟨rfl, hfs, hr'⟩ := h
  refine ⟨by simp, fun f hf => ?_, rfl⟩
  rcases List.mem_append.mp hf with hf | hf
  · exact hfs f hf
  · rw [List.mem_singleton.mp hf]
    exact wholeFrame_snoc hr' hr

/-- Every byte sequence cuts into whole frames and a residual (40_assembler.md R67, R70). -/
theorem exists_cutsInto (p : List Byte) : ∃ fs r, CutsInto p fs r := by
  induction p using List.reverseRecOn with
  | nil => exact ⟨[], [], cutsInto_of_isResidual rfl⟩
  | append_singleton p b ih =>
    obtain ⟨fs, r, h⟩ := ih
    cases hr : isResidual (r ++ [b]) with
    | true => exact ⟨_, _, h.snoc_residual hr⟩
    | false => exact ⟨_, _, h.snoc_frame hr⟩

/-- The loop leaves exactly the frames' records and the residual (40_assembler.md R67 to R70). -/
theorem extract_of_cutsInto {fs : List (List Byte)} {r : List Byte} {s : State} (hok : s.ok = false)
    (h : CutsInto s.buf fs r) : extract s = .next (recordFrames fs { s with buf := r }) := by
  obtain ⟨hb, hfs, hr⟩ := h
  induction fs generalizing s with
  | nil =>
    have hb : s.buf = r := hb
    subst hb
    rw [extract_residual hr, recordFrames_nil]
  | cons f fs ih =>
    obtain ⟨hw, hfs⟩ := List.forall_mem_cons.mp hfs
    have hb : s.buf = f ++ (fs.flatten ++ r) := by simpa using hb
    rw [extract_candidate (candidate_eq_ok_iff.mpr ⟨hw, _, hb⟩), finishCandidate_judge hw, andThen_next,
      ih (by simp) (by simp [hb]) hfs, recordFrames_cons f fs, ← hok]
    rfl

end Sys2Proof.Machine
end

section
/-! PROOFS. The step that takes a FEED on time, said once through a cut of the kept bytes and the chunk, and the refused
mark through every step. -/

namespace Sys2Proof.Machine

theorem not_onTime_iff {now : Nat} {s : State} : ¬onTime now s ↔ ∃ t, s.lastT = some t ∧ now < t := by
  simp [onTime]

/-- Only a non-empty buffer is evicted (40_assembler.md R65). -/
theorem buf_ne_nil_of_evictsAt {now : Nat} {s : State} (h : evictsAt now s = true) : s.buf ≠ [] := by
  cases ht : s.lastT <;> simp_all [evictsAt]

/-- Only a stamped buffer is evicted (40_assembler.md R65). -/
theorem lastV_of_evictsAt {now : Nat} {s : State} (h : evictsAt now s = true) : s.lastV = true := by
  cases ht : s.lastT <;> simp_all [evictsAt, State.lastV]

/-- What the stale test keeps of a residual is a residual. -/
theorem isResidual_keptBytes {s : State} (now : Nat) (h : isResidual s.buf = true) :
    isResidual (keptBytes now s) = true := by
  unfold keptBytes
  split
  · rfl
  · exact h

/-- What the stale test traces of a residual is sound (60_exceptions.md R95). -/
theorem soundTrace_of_mem_evictTrace {now : Nat} {s : State} {d : TraceEvent} (h : isResidual s.buf = true)
    (hd : d ∈ evictTrace now s) : soundTrace d := by
  unfold evictTrace at hd
  split at hd
  · next he =>
    rw [List.mem_singleton.mp hd]
    exact ⟨List.length_pos_iff.mpr (buf_ne_nil_of_evictsAt he), length_le_of_isResidual h⟩
  · simp at hd

/-- A FEED to a non-empty buffer that no FEED has stamped faults (10_state.md R22). -/
theorem step_feed_unstamped {s : State} {now : Nat} {chunk : List Byte} {rest : List Event}
    (ha : awaits (.feed now chunk) rest s) (hb : s.buf ≠ []) (hv : s.lastV = false) :
    step s = .fault .lastTUnwritten := by
  rw [step_feed ha]
  exact feed_unstamped chunk hb ((lastV_eq_false_iff s).mp hv)

/-- A FEED that answers a next state found its buffer empty or stamped. -/
theorem stamped_of_step_feed {s t : State} {now : Nat} {chunk : List Byte} {rest : List Event}
    (ha : awaits (.feed now chunk) rest s) (h : step s = .next t) : s.buf ≠ [] → s.lastV = true := by
  intro hb
  by_contra hv
  rw [step_feed_unstamped ha hb (by simpa using hv)] at h
  cases h

/-- The state that a FEED on time answers when the kept bytes and the chunk cut into `fs` and `r`. -/
def afterFeed (now : Nat) (rest : List Event) (fs : List (List Byte)) (r : List Byte) (s : State) : State :=
  recordFrames fs { s with buf := r, lastT := some now, inputs := rest, trace := s.trace ++ evictTrace now s }

@[simp] theorem afterFeed_buf (now : Nat) (rest : List Event) (fs : List (List Byte)) (r : List Byte) (s : State) :
    (afterFeed now rest fs r s).buf = r := rfl
@[simp] theorem afterFeed_lastT (now : Nat) (rest : List Event) (fs : List (List Byte)) (r : List Byte) (s : State) :
    (afterFeed now rest fs r s).lastT = some now := rfl
@[simp] theorem afterFeed_lastV (now : Nat) (rest : List Event) (fs : List (List Byte)) (r : List Byte) (s : State) :
    (afterFeed now rest fs r s).lastV = true := rfl
@[simp] theorem afterFeed_ok (now : Nat) (rest : List Event) (fs : List (List Byte)) (r : List Byte) (s : State) :
    (afterFeed now rest fs r s).ok = s.ok := rfl
@[simp] theorem afterFeed_refused (now : Nat) (rest : List Event) (fs : List (List Byte)) (r : List Byte)
    (s : State) : (afterFeed now rest fs r s).refused = s.refused := rfl
@[simp] theorem afterFeed_inputs (now : Nat) (rest : List Event) (fs : List (List Byte)) (r : List Byte) (s : State) :
    (afterFeed now rest fs r s).inputs = rest := rfl
@[simp] theorem afterFeed_out (now : Nat) (rest : List Event) (fs : List (List Byte)) (r : List Byte) (s : State) :
    (afterFeed now rest fs r s).out = s.out ++ fs.filterMap dispatchEventOf := rfl
@[simp] theorem afterFeed_trace (now : Nat) (rest : List Event) (fs : List (List Byte)) (r : List Byte) (s : State) :
    (afterFeed now rest fs r s).trace = s.trace ++ evictTrace now s ++ fs.filterMap dropOf := rfl

/-- A FEED on time gives exactly the records of its frames and keeps the residual (40_assembler.md R65 to R70). -/
theorem step_feed_of_cutsInto {s : State} {now : Nat} {chunk r : List Byte} {rest : List Event}
    {fs : List (List Byte)} (ha : awaits (.feed now chunk) rest s) (ho : onTime now s)
    (hs : s.buf ≠ [] → s.lastV = true) (hc : CutsInto (keptBytes now s ++ chunk) fs r) :
    step s = .next (afterFeed now rest fs r s) := by
  rw [step_feed ha, feed_onTime chunk (by exact ho) (by exact hs)]
  exact extract_of_cutsInto ha.1 hc

/-- Every next state of a FEED on time is one that a cut gives. -/
theorem step_feed_eq_next {s t : State} {now : Nat} {chunk : List Byte} {rest : List Event}
    (ha : awaits (.feed now chunk) rest s) (ho : onTime now s) (h : step s = .next t) :
    ∃ fs r, CutsInto (keptBytes now s ++ chunk) fs r ∧ t = afterFeed now rest fs r s := by
  obtain ⟨fs, r, hc⟩ := exists_cutsInto (keptBytes now s ++ chunk)
  rw [step_feed_of_cutsInto ha ho (stamped_of_step_feed ha h) hc, Host.Outcome.next.injEq] at h
  exact ⟨fs, r, hc, h.symm⟩

/-- A FEED before the last one is refused (40_assembler.md R64). -/
theorem step_feed_late {s : State} {now : Nat} {chunk : List Byte} {rest : List Event}
    (ha : awaits (.feed now chunk) rest s) (ho : ¬onTime now s) :
    step s = .next (markRefused { s with inputs := rest }) := by
  rw [step_feed ha]
  exact feed_late chunk ho

/-- No meaning does more than append one record: it emits, or it drops (10_state.md R23, 42_demux.md R83). -/
theorem exec_cases (i : Instr) (s : State) :
    (∃ k, exec i s = .next (emit k (encode i) s)) ∨ ∃ c, exec i s = .next (dropCandidate c (encode i) s) := by
  cases i with
  | interval | distance | voltage => exact .inl ⟨_, rfl⟩
  | speedUnrecognized | cat0 | cat3 | cat4 | cat5 | cat6 | cat7 => exact .inr ⟨_, rfl⟩

/-- No meaning touches the refused mark. -/
theorem exec_refused {i : Instr} {s t : State} (h : exec i s = .next t) : t.refused = s.refused := by
  rcases exec_cases i s with ⟨k, he⟩ | ⟨c, he⟩ <;> (rw [he] at h; cases h; rfl)

/-- What follows the verdict gives the verdict up and leaves the refused mark alone. -/
theorem finishCandidate_ok_refused {f : List Byte} {s t : State} (h : finishCandidate f s = .next t) :
    t.ok = false ∧ t.refused = s.refused := by
  obtain ⟨u, hu, ht⟩ := andThen_eq_next_iff.mp h
  cases ht
  suffices hr : u.refused = s.refused from ⟨rfl, hr⟩
  split at hu
  · unfold dispatch at hu
    split at hu
    · exact exec_refused hu
    · cases hu
  · cases hu; rfl

/-- The end of a FEED leaves the refused mark alone. -/
theorem resumeFeed_refused {s t : State} (h : resumeFeed s = .next t) : t.refused = s.refused := by
  obtain ⟨f, -, h⟩ := withRead_eq_next_iff.mp h
  obtain ⟨u, hu, ht⟩ := andThen_eq_next_iff.mp h
  obtain ⟨hok, hr⟩ := finishCandidate_ok_refused hu
  obtain ⟨fs, r, hc⟩ := exists_cutsInto u.buf
  rw [extract_of_cutsInto hok hc] at ht
  cases ht
  exact hr

/-- A step leaves the refused mark alone, or refuses a late FEED (10_state.md R28). -/
theorem step_refused_cases {s t : State} (h : step s = .next t) :
    t.refused = s.refused ∨ ∃ now chunk rest, awaits (.feed now chunk) rest s ∧ ¬onTime now s := by
  rcases step_cases h with ⟨-, hr⟩ | ⟨-, -, rfl⟩ | ⟨rest, -, rfl⟩ | ⟨now, chunk, rest, ha, ho, -⟩ |
    ⟨now, chunk, rest, ha, ho, -⟩
  · exact .inl (resumeFeed_refused hr)
  · exact .inl rfl
  · exact .inl rfl
  · exact .inr ⟨now, chunk, rest, ha, ho⟩
  · obtain ⟨fs, r, -, rfl⟩ := step_feed_eq_next ha ho h
    exact .inl rfl

/-- A refused FEED's next state carries the mark. -/
theorem refused_of_step_late {s t : State} {now : Nat} {chunk : List Byte} {rest : List Event}
    (ha : awaits (.feed now chunk) rest s) (ho : ¬onTime now s) (h : step s = .next t) : t.refused = true := by
  rw [step_feed_late ha ho] at h
  cases h
  rfl

end Sys2Proof.Machine
end

section
/-! PROOFS. The invariant of the states between events. -/

namespace Sys2Proof.Machine

/-- A FEED on time keeps the invariant: what it gives out is the records of whole frames and of one eviction. -/
theorem afterFeed_inv {s : State} {now : Nat} {rest : List Event} {p r : List Byte} {fs : List (List Byte)}
    (hi : s.Inv) (hc : CutsInto p fs r) : (afterFeed now rest fs r s).Inv where
  verdictGivenUp := hi.verdictGivenUp
  bufferResidual := hc.residual
  bufferStamped _ := rfl
  eventsSound e he := by
    rcases List.mem_append.mp he with he | he
    · exact hi.eventsSound e he
    · obtain ⟨f, hf, hfe⟩ := List.mem_filterMap.mp he
      exact soundEvent_of_wholeFrame (hc.wholeFrame_of_mem hf) hfe
  traceSound d hd := by
    rw [afterFeed_trace, List.mem_append, List.mem_append] at hd
    rcases hd with (hd | hd) | hd
    · exact hi.traceSound d hd
    · exact soundTrace_of_mem_evictTrace hi.bufferResidual hd
    · obtain ⟨f, hf, hfd⟩ := List.mem_filterMap.mp hd
      exact soundTrace_of_wholeFrame (hc.wholeFrame_of_mem hf) hfd

theorem resetBlock_inv {s : State} {rest : List Event} (hi : s.Inv) :
    (resetBlock { s with inputs := rest }).Inv :=
  ⟨hi.verdictGivenUp, rfl, fun h => absurd rfl h, hi.eventsSound, hi.traceSound⟩

theorem markRefused_inv {s : State} {rest : List Event} (hi : s.Inv) :
    (markRefused { s with inputs := rest }).Inv :=
  ⟨hi.verdictGivenUp, hi.bufferResidual, hi.bufferStamped, hi.eventsSound, hi.traceSound⟩

/-- Settles O44, by what a step can do: idle, RESET and a refused FEED give nothing out, and a FEED on time gives out the
records of a cut. -/
theorem everyStepKeepsInv : Obligations.EveryStepKeepsInv := by
  intro s t hi h
  rcases step_cases h with ⟨hok, -⟩ | ⟨-, -, rfl⟩ | ⟨rest, -, rfl⟩ | ⟨now, chunk, rest, -, -, rfl⟩ |
    ⟨now, chunk, rest, ha, ho, -⟩
  · rw [hi.verdictGivenUp] at hok
    cases hok
  · exact hi
  · exact resetBlock_inv hi
  · exact markRefused_inv hi
  · obtain ⟨fs, r, hc, rfl⟩ := step_feed_eq_next ha ho h
    exact afterFeed_inv hi hc

/-- Settles O43: nothing is held, given out or traced at reset. -/
theorem invHoldsAtReset : Obligations.InvHoldsAtReset where
  verdictGivenUp := rfl
  bufferResidual := rfl
  bufferStamped h := absurd rfl h
  eventsSound _ he := absurd he List.not_mem_nil
  traceSound _ hd := absurd hd List.not_mem_nil

end Sys2Proof.Machine
end

section
/-! PROOFS. The permitted realisation of 10_state.md R29 against the machine. -/

namespace Sys2Proof.Machine

/-- Byte-serial intake cuts the stream: what it holds is the residual, what it emitted is the frames' events
(40_assembler.md R73). -/
theorem Realised.foldl_intakeByte_cutsInto (chunk : List Byte) {h : Realised} (hr : isResidual h.buf = true) :
    ∃ fs, CutsInto (h.buf ++ chunk) fs (chunk.foldl Realised.intakeByte h).buf ∧
      (chunk.foldl Realised.intakeByte h).out = h.out ++ fs.filterMap dispatchEventOf := by
  induction chunk using List.reverseRecOn with
  | nil => exact ⟨[], by simpa using cutsInto_of_isResidual hr, by simp⟩
  | append_singleton chunk b ih =>
    obtain ⟨fs, hc, ho⟩ := ih
    rw [List.foldl_append, List.foldl_cons, List.foldl_nil, ← List.append_assoc]
    rcases (chunk.foldl Realised.intakeByte h).intakeByte_cases b with ⟨hb, e⟩ | ⟨hb, e⟩ <;> rw [e]
    · exact ⟨fs, hc.snoc_residual hb, ho⟩
    · refine ⟨_, hc.snoc_frame hb, ?_⟩
      cases he : dispatchEventOf ((chunk.foldl Realised.intakeByte h).buf ++ [b]) <;> simp [ho, he]

/-- The counter's stale test is the timestamp's (10_state.md R29). -/
theorem Realises.evictsAt_iff {now : Nat} {h : Realised} {s : State} (hi : s.Inv) (hr : Realises now h s) :
    evictsAt now s = true ↔ h.buf ≠ [] ∧ h.idle > Config.tIn := by
  obtain ⟨hb, -, -, hidle⟩ := hr
  cases ht : s.lastT with
  | none =>
    have hnil : s.buf = [] := by
      by_contra hne
      have := hi.bufferStamped hne
      simp [State.lastV, ht] at this
    simp [evictsAt, ht, hb, hnil]
  | some t =>
    obtain ⟨-, hidle⟩ := hidle t ht
    have hlt : h.idle > Config.tIn ↔ now - t > Config.tIn := by omega
    simp [evictsAt, ht, hb, hlt]

/-- The realisation's stale test keeps what the machine's keeps, and touches no output. -/
theorem Realises.dropStale_buf_out {now : Nat} {h : Realised} {s : State} (hi : s.Inv) (hr : Realises now h s) :
    h.dropStale.buf = keptBytes now s ∧ h.dropStale.out = s.out := by
  have hiff := hr.evictsAt_iff hi
  obtain ⟨hb, -, ho, -⟩ := hr
  unfold Realised.dropStale keptBytes
  by_cases he : evictsAt now s = true
  · rw [if_pos (hiff.mp he), if_pos he]
    exact ⟨rfl, ho⟩
  · rw [if_neg (mt hiff.mpr he), if_neg he]
    exact ⟨hb, ho⟩

/-- No time at which a realisation stands for the machine is before the last FEED. -/
theorem Realises.onTime {now : Nat} {h : Realised} {s : State} (hr : Realises now h s) : onTime now s := by
  obtain ⟨-, -, -, hidle⟩ := hr
  exact fun t ht => (hidle t ht).1

theorem realises_reset (now : Nat) : Realises now Realised.reset State.reset :=
  ⟨rfl, rfl, rfl, fun t ht => by cases ht⟩

/-- A passing ms keeps the counter at the saturated time. -/
theorem Realises.tick {now : Nat} {h : Realised} {s : State} (hr : Realises now h s) :
    Realises (now + 1) h.tick s := by
  obtain ⟨hb, hv, ho, hidle⟩ := hr
  refine ⟨hb, hv, ho, fun t ht => ?_⟩
  obtain ⟨hle, heq⟩ := hidle t ht
  rw [Realised.tick_idle, heq]
  omega

/-- A FEED on both sides: the intake's own cut is a cut of the machine's stream. -/
theorem Realises.feed {now : Nat} {h : Realised} {s : State} {chunk : List Byte} {rest : List Event} (hi : s.Inv)
    (hr : Realises now h s) (ha : awaits (.feed now chunk) rest s) :
    ∃ t, step s = .next t ∧ Realises now (h.feed chunk) t := by
  obtain ⟨hbuf, hout⟩ := hr.dropStale_buf_out hi
  have hres : isResidual h.dropStale.buf = true := hbuf ▸ isResidual_keptBytes now hi.bufferResidual
  obtain ⟨fs, hc, ho⟩ := Realised.foldl_intakeByte_cutsInto chunk hres
  rw [hbuf] at hc
  rw [hout] at ho
  refine ⟨_, step_feed_of_cutsInto ha hr.onTime hi.bufferStamped hc, rfl, rfl, ho, fun t ht => ?_⟩
  cases ht
  simp

/-- A RESET on both sides: nothing is buffered and no timestamp is held; the outputs stay. -/
theorem Realises.takeReset {now : Nat} {h : Realised} {s : State} (rest : List Event) (hr : Realises now h s) :
    Realises now h.takeReset (resetBlock { s with inputs := rest }) := by
  obtain ⟨-, -, ho, -⟩ := hr
  exact ⟨rfl, rfl, ho, fun t ht => by cases ht⟩

/-- Settles O46: the realisation starts with the machine, and a passing ms, a FEED and a RESET keep them together. -/
theorem idleCounterRealisationAgrees : Obligations.IdleCounterRealisationAgrees :=
  ⟨realises_reset, fun _ _ _ hi hr => ⟨hr.tick, fun _ _ ha => hr.feed hi ha, fun rest ha =>
    ⟨_, step_reset ha, hr.takeReset rest⟩⟩⟩

/-- Settles O47: a residual has at most 16 bytes, and the byte after it waits or completes a frame. -/
theorem serialIntakeFitsSeventeenCells : Obligations.SerialIntakeFitsSeventeenCells := by
  intro h b hr
  have hl := length_le_of_isResidual hr
  refine ⟨?_, ?_, wholeFrame_snoc hr⟩
  · rw [List.length_append, List.length_singleton]
    exact Nat.succ_le_succ hl
  · rcases h.intakeByte_cases b with ⟨hb, e⟩ | ⟨-, e⟩ <;> rw [e]
    · exact hb
    · rfl

end Sys2Proof.Machine
end

section
/-! PROOFS. The state's obligations of tiers 2 and 1 (10_state.md R19 to R28). -/

namespace Sys2Proof.Machine

/-- Settles O18: an event and a drop are each one record, and neither touches anything else. -/
theorem messageTypesOnlyAppendOneRecord : Obligations.MessageTypesOnlyAppendOneRecord := by
  intro i s t h
  rcases exec_cases i s with ⟨k, he⟩ | ⟨c, he⟩ <;> (rw [he] at h; cases h)
  · exact ⟨fun _ _ => rfl, rfl, rfl, rfl, rfl, rfl, .inl ⟨_, rfl, rfl⟩⟩
  · exact ⟨fun _ _ => rfl, rfl, rfl, rfl, rfl, rfl, .inr ⟨_, rfl, rfl⟩⟩

/-- Where nothing is buffered or all of it is stale, nothing is kept. -/
theorem keptBytes_eq_nil {now : Nat} {s : State} (h : s.buf = [] ∨ evictsAt now s = true) : keptBytes now s = [] := by
  unfold keptBytes
  split
  · rfl
  · next he => exact h.resolve_right he

/-- A FEED on time to a buffer that is empty or stale works on the chunk alone (40_assembler.md R76). -/
theorem step_feed_of_nothing_kept {s : State} {now : Nat} {chunk r : List Byte} {rest : List Event}
    {fs : List (List Byte)} (ha : awaits (.feed now chunk) rest s) (ho : onTime now s)
    (hk : s.buf = [] ∨ evictsAt now s = true) (hc : CutsInto chunk fs r) :
    step s = .next (afterFeed now rest fs r s) :=
  step_feed_of_cutsInto ha ho (fun hb => lastV_of_evictsAt (hk.resolve_left hb)) (by rwa [keptBytes_eq_nil hk])

/-- Settles O27: both steps cut the chunk alone, and in the same way. -/
theorem evictedBytesNeverShowInTheOutputs : Obligations.EvictedBytesNeverShowInTheOutputs := by
  intro s s' now chunk rest ha ha' hout ho ho' hk hk'
  obtain ⟨fs, r, hc⟩ := exists_cutsInto chunk
  exact ⟨_, _, step_feed_of_nothing_kept ha ho hk hc, step_feed_of_nothing_kept ha' ho' hk' hc, by simp [hout],
    rfl, rfl⟩

/-- Settles O36: every next state of a FEED on time is stamped by it. -/
theorem feedRecordsItsOwnTime : Obligations.FeedRecordsItsOwnTime := by
  intro s t now chunk rest ha ho h
  obtain ⟨fs, r, -, rfl⟩ := step_feed_eq_next ha ho h
  exact ⟨rfl, rfl, ha.1, rfl, rfl⟩

/-- Settles O42: no step but a refused FEED touches the mark, and a refused FEED sets it. -/
theorem refusedMarkIsSetOnlyByBackwardFeedAndKept : Obligations.RefusedMarkIsSetOnlyByBackwardFeedAndKept := by
  refine ⟨rfl, fun s t h => ⟨fun ht => ?_, ?_⟩⟩
  · rcases step_refused_cases h with heq | ⟨now, chunk, rest, ha, ho⟩
    · exact .inl (heq ▸ ht)
    · obtain ⟨t0, h0, hlt⟩ := not_onTime_iff.mp ho
      exact .inr ⟨now, chunk, rest, t0, ha, h0, hlt⟩
  · rintro (hs | ⟨now, chunk, rest, t0, ha, h0, hlt⟩)
    · rcases step_refused_cases h with heq | ⟨now, chunk, rest, ha, ho⟩
      · exact heq.trans hs
      · exact refused_of_step_late ha ho h
    · exact refused_of_step_late ha (not_onTime_iff.mpr ⟨t0, h0, hlt⟩) h

/-- A residual in the rule's own words: nothing, or less than its header declares (10_state.md R19). -/
theorem isResidual_cases {r : List Byte} (h : isResidual r = true) :
    r = [] ∨ ∃ b0 tl, r = b0 :: tl ∧ r.length < (lengthCode b0).toNat + 2 := by
  cases r with
  | nil => exact .inl rfl
  | cons b0 tl => exact .inr ⟨b0, tl, rfl, of_decide_eq_true h⟩

/-- Settles O45: a FEED on time leaves the residual of a cut, RESET leaves nothing, and Append adds to a residual. -/
theorem bufferBetweenEventsIsAShortResidual : Obligations.BufferBetweenEventsIsAShortResidual := by
  refine ⟨fun s t now chunk rest ha ho h => ?_, fun s t rest ha h => ?_, fun s now chunk hr => ?_⟩
  · obtain ⟨fs, r, hc, rfl⟩ := step_feed_eq_next ha ho h
    exact ⟨isResidual_cases hc.residual, length_le_of_isResidual hc.residual⟩
  · rw [step_reset ha] at h
    cases h
    rfl
  · rw [append_buf, List.length_append]
    exact Nat.add_le_add_right (length_le_of_isResidual (isResidual_keptBytes now hr)) _

/-- Settles O31: the stale test of a non-empty buffer is the read that faults. -/
theorem unstampedBufferFaults : Obligations.UnstampedBufferFaults :=
  fun _ _ _ _ ha hb hv => step_feed_unstamped ha hb hv

/-- Settles O41: the reset state's values, and the next state of a RESET. -/
theorem runStartsInTheResetState : Obligations.RunStartsInTheResetState :=
  ⟨rfl, rfl, rfl, rfl, fun _ _ ha => ⟨_, step_reset ha, rfl, rfl, rfl⟩⟩

end Sys2Proof.Machine
end

section
/-! PROOFS. The step between events with none presented (20_memory.md R37, 60_exceptions.md R108). -/

namespace Sys2Proof.Machine

/-- Settles O39: with the verdict unset the step looks at the events presented, and with none of them it idles. -/
theorem noEventLeavesTheStateAlone : Obligations.NoEventLeavesTheStateAlone := by
  intro s hok hin
  simp [step, advance, hok, hin]

end Sys2Proof.Machine
end

section
/-! PROOFS. The decoder against the encoder: what a sequence decodes to, what it rejects, and the opcode table's rows
(30_encoding.md R45 to R58). -/

namespace Sys2Proof

theorem tailFits_iff {n : BitVec 4} {tail : List Byte} : tailFits n tail = true ↔ tail.length = n.toNat :=
  beq_iff_eq

theorem wellFormed_speedUnrecognized_iff {x : Bool} {n : BitVec 4} {s : Byte} {tail : List Byte} :
    wellFormed (.speedUnrecognized x n s tail) = true ↔ tailFits n tail = true ∧ s ≠ 0x81#8 ∧ s ≠ 0x82#8 := by
  simp [wellFormed, subTypeUnrecognized]

/-- What decodes is a header, byte 1 and a tail that fits the header's length code, and its type is their routing
(30_encoding.md R47, R58). -/
theorem decode_eq_ok {bs rest : List Byte} {i : Instr} (h : decode bs = .ok (i, rest)) :
    ∃ b0 b1 tail, bs = b0 :: b1 :: tail ++ rest ∧ tailFits (lengthCode b0) tail = true ∧
      i = routeType (topBit b0) (category b0) (lengthCode b0) b1 tail := by
  match bs with
  | [] | [_] => cases h
  | b0 :: b1 :: r =>
    rw [decode_cons_cons] at h
    split at h
    · next hle =>
      cases h
      exact ⟨b0, b1, r.take (lengthCode b0).toNat, by simp, tailFits_iff.mpr (by simpa using hle), rfl⟩
    · cases h

/-- The encoder gives back the bytes that a routed type was read from (30_encoding.md R45, R46). -/
theorem encode_routeType_fields (b0 b1 : Byte) (tail : List Byte) :
    encode (routeType (topBit b0) (category b0) (lengthCode b0) b1 tail) = b0 :: b1 :: tail := by
  rw [encode_routeType, frameBytes, headerByte_fields]

/-- Every well-formed instruction is the routing of header fields, a byte 1 and a tail that fits (42_demux.md R84,
R85). -/
theorem exists_routeType_of_wellFormed {i : Instr} (h : wellFormed i = true) :
    ∃ x c n b1 tail, i = routeType x c n b1 tail ∧ tailFits n tail = true := by
  cases i with
  | interval x n tail => exact ⟨x, 1#3, n, 0x81#8, tail, rfl, h⟩
  | distance x n tail => exact ⟨x, 1#3, n, 0x82#8, tail, rfl, h⟩
  | speedUnrecognized x n s tail =>
    obtain ⟨ht, h1, h2⟩ := wellFormed_speedUnrecognized_iff.mp h
    exact ⟨x, 1#3, n, s, tail, (routeType_speedUnrecognized x n s tail h1 h2).symm, ht⟩
  | voltage x n b tail => exact ⟨x, 2#3, n, b, tail, rfl, h⟩
  | cat0 x n b tail => exact ⟨x, 0#3, n, b, tail, rfl, h⟩
  | cat3 x n b tail => exact ⟨x, 3#3, n, b, tail, rfl, h⟩
  | cat4 x n b tail => exact ⟨x, 4#3, n, b, tail, rfl, h⟩
  | cat5 x n b tail => exact ⟨x, 5#3, n, b, tail, rfl, h⟩
  | cat6 x n b tail => exact ⟨x, 6#3, n, b, tail, rfl, h⟩
  | cat7 x n b tail => exact ⟨x, 7#3, n, b, tail, rfl, h⟩

/-- Settles O1: a well-formed instruction is a routing, and a routing is read back from its frame's bytes. -/
theorem decodeOfEncodeGivesTheInstructionBack : Obligations.DecodeOfEncodeGivesTheInstructionBack := by
  intro i rest h
  obtain ⟨x, c, n, b1, tail, rfl, ht⟩ := exists_routeType_of_wellFormed h
  rw [encode_routeType, decode_frameBytes_append x c n b1 tail rest ht]

/-- Settles O2: what decodes is a routing of its own header, and the encoder undoes the routing. -/
theorem encodeOfDecodeGivesTheBytesBack : Obligations.EncodeOfDecodeGivesTheBytesBack := by
  intro bs rest i h
  obtain ⟨b0, b1, tail, rfl, ht, rfl⟩ := decode_eq_ok h
  exact ⟨by rw [encode_routeType_fields], by rw [wellFormed_routeType, ht]⟩

/-- Every instruction's encoding matches its own row of the opcode table (30_encoding.md R52). -/
theorem rowMatch (i : Instr) : Laws.RowMatch.Statement i := by
  cases i with
  | interval => exact Laws.RowMatch.interval ..
  | distance => exact Laws.RowMatch.distance ..
  | speedUnrecognized => exact Laws.RowMatch.speedUnrecognized ..
  | voltage => exact Laws.RowMatch.voltage ..
  | cat0 => exact Laws.RowMatch.cat0 ..
  | cat3 => exact Laws.RowMatch.cat3 ..
  | cat4 => exact Laws.RowMatch.cat4 ..
  | cat5 => exact Laws.RowMatch.cat5 ..
  | cat6 => exact Laws.RowMatch.cat6 ..
  | cat7 => exact Laws.RowMatch.cat7 ..

theorem OpcodeRow.matchesWord_iff (r : OpcodeRow) (w : BitVec 16) : r.matchesWord w = true ↔ w &&& r.mask = r.pattern :=
  beq_iff_eq

/-- Two rows that match one word agree on the bits that both masks cover. -/
theorem OpcodeRow.pattern_and_mask_of_matchesWord {r r' : OpcodeRow} {w : BitVec 16} (h : r.matchesWord w = true)
    (h' : r'.matchesWord w = true) : r.pattern &&& r'.mask = r'.pattern &&& r.mask := by
  rw [← (r.matchesWord_iff w).mp h, ← (r'.matchesWord_iff w).mp h']
  rw [BitVec.and_assoc, BitVec.and_assoc, BitVec.and_comm r.mask]

/-- Of two rows of the table that agree where both masks look, the second has fewer mask bits, or the first is the rest
of the Speed category and the second is one of its two recognised sub-types (30_encoding.md R52). -/
theorem maskBits_lt_or_speed : ∀ r ∈ opcodeTable, ∀ r' ∈ opcodeTable,
    r.pattern &&& r'.mask = r'.pattern &&& r.mask → r' ≠ r → r'.maskBits < r.maskBits ∨
      r.mnemonic = "SPEED_UNRECOGNIZED" ∧ r'.mask = 0x70FF#16 ∧ (r'.pattern = 0x1081#16 ∨ r'.pattern = 0x1082#16) := by
  decide

/-- No well-formed frame of the rest of the Speed category has the word of a recognised sub-type (42_demux.md R89). -/
theorem decodeWord_ne_recognised {i : Instr} {b0 b1 : Byte} {tail : List Byte} (hw : wellFormed i = true)
    (hm : i.mnemonic = "SPEED_UNRECOGNIZED") (he : encode i = b0 :: b1 :: tail) :
    decodeWord b0 b1 &&& 0x70FF#16 ≠ 0x1081#16 ∧ decodeWord b0 b1 &&& 0x70FF#16 ≠ 0x1082#16 := by
  cases i with
  | speedUnrecognized x n s t =>
    obtain ⟨-, h1, h2⟩ := wellFormed_speedUnrecognized_iff.mp hw
    obtain ⟨rfl, rfl, rfl⟩ : headerByte x 1#3 n = b0 ∧ s = b1 ∧ t = tail := by simpa [encode, frameBytes] using he
    rw [decodeWord_header_subType]
    exact ⟨fun h => h1 ((Machine.subTypeWord_eq_interval_iff 1#3 s).mp h).2,
      fun h => h2 ((Machine.subTypeWord_eq_distance_iff 1#3 s).mp h).2⟩
  | _ => simp [Instr.mnemonic] at hm

/-- Settles O3: the type's own row matches; a matching row with no fewer mask bits could only be that of a recognised
sub-type, which the type's own byte 1 rules out. -/
theorem decodedTypeIsTheWinningOpcodeRow : Obligations.DecodedTypeIsTheWinningOpcodeRow := by
  intro b0 b1 bs rest i h
  obtain ⟨hbs, hw⟩ := encodeOfDecodeGivesTheBytesBack _ _ _ h
  obtain ⟨r, hr, hm, c0, c1, tail, he, hmatch⟩ := rowMatch i
  rw [he] at hbs
  cases hbs
  refine ⟨r, hr, hm, hmatch, fun r' hr' hmatch' hne => ?_⟩
  have hagree := OpcodeRow.pattern_and_mask_of_matchesWord hmatch hmatch'
  refine (maskBits_lt_or_speed r hr r' hr' hagree hne).resolve_right fun ⟨hspeed, hmask, hpat⟩ => ?_
  obtain ⟨hne1, hne2⟩ := decodeWord_ne_recognised hw (hm ▸ hspeed) he
  have hword := (r'.matchesWord_iff _).mp hmatch'
  rw [hmask] at hword
  exact hpat.elim (fun hp => hne1 (hword.trans hp)) fun hp => hne2 (hword.trans hp)

/-- A sequence shorter than its header declares is rejected as incomplete (30_encoding.md R58). -/
theorem decode_of_length_lt {b0 : Byte} {tl : List Byte} (h : (b0 :: tl).length < frameLength b0) :
    decode (b0 :: tl) = .error .incompleteFrame := by
  cases tl with
  | nil => rfl
  | cons b1 r =>
    rw [decode_cons_cons, if_neg]
    simp only [List.length_cons, frameLength] at h; omega

/-- A sequence as long as its header declares decodes, whatever its bytes (30_encoding.md R56, R58). -/
theorem decode_of_frameLength_le {b0 : Byte} {tl : List Byte} (h : frameLength b0 ≤ (b0 :: tl).length) :
    ∃ d, decode (b0 :: tl) = .ok d := by
  cases tl with
  | nil => simp [frameLength] at h
  | cons b1 r =>
    rw [decode_cons_cons, if_pos]
    · exact ⟨_, rfl⟩
    · simpa [frameLength] using h

/-- Settles O4: an empty sequence has no header, and a header's length against the bytes present decides the rest. -/
theorem decodeRejectsExactlyShortSequences : Obligations.DecodeRejectsExactlyShortSequences := by
  intro bs why
  cases bs with
  | nil => simp [decode, eq_comm]
  | cons b0 tl =>
    rcases Nat.lt_or_ge (b0 :: tl).length (frameLength b0) with hlt | hge
    · rw [decode_of_length_lt hlt]
      constructor
      · rintro ⟨⟩
        exact .inr ⟨b0, tl, rfl, hlt, rfl⟩
      · rintro (⟨⟨⟩, -⟩ | ⟨_, _, -, -, rfl⟩)
        rfl
    · obtain ⟨d, hd⟩ := decode_of_frameLength_le hge
      rw [hd]
      constructor
      · rintro ⟨⟩
      · rintro (⟨⟨⟩, -⟩ | ⟨_, _, ⟨⟩, hlt, -⟩)
        exact absurd hlt (Nat.not_lt.mpr hge)

/-- Settles O7: the low nibble under its mask, and the bytes of what decodes are its header, byte 1 and its tail. -/
theorem frameLengthComesFromTheLowNibbleAlone : Obligations.FrameLengthComesFromTheLowNibbleAlone := by
  intro b0
  refine ⟨by revert b0; decide, two_le_frameLength b0, frameLength_le b0, fun bs rest i h => ?_⟩
  obtain ⟨c0, b1, tail, hbs, ht, rfl⟩ := decode_eq_ok h
  obtain ⟨rfl, rfl⟩ : b0 = c0 ∧ bs = b1 :: tail ++ rest := List.cons.inj hbs
  have ht := tailFits_iff.mp ht
  rw [encode_routeType_fields]
  constructor
  · simp [frameLength, ht]
  · simp only [List.length_cons, List.length_append, List.cons_append, frameLength, ht]; omega

/-- Settles O5: the decoder run on each frame. -/
theorem sampleFramesDecodeAsTheSpecSays : Obligations.SampleFramesDecodeAsTheSpecSays := by
  refine ⟨?_, ?_, ?_, ?_, ?_, ?_⟩ <;> decide

/-- Settles O6: W is the two bytes side by side, so each header field keeps its place, 8 bits up. -/
theorem decodeWordHoldsTheHeaderFields : Obligations.DecodeWordHoldsTheHeaderFields := by
  intro b0 b1
  have hW : decodeWord b0 b1 = b0 ++ b1 := rfl
  refine ⟨?_, ?_, ?_, ?_, ?_, fun r => r.matchesWord_iff _⟩
  · simpa [hW] using BitVec.setWidth_append_eq_shiftLeft_setWidth_or (b := b0) (b' := b1) (w'' := 16)
  · exact BitVec.extractLsb'_append_eq_of_le (by decide)
  · exact BitVec.extractLsb'_append_eq_of_le (by decide)
  · rw [hW, BitVec.getLsbD_append]; rfl
  · exact BitVec.extractLsb'_append_eq_right

end Sys2Proof
end

section
/-! PROOFS. The frame format against VALIDATE, DISPATCH and the loop: the checksum byte, header bit 7 and the cut of a
byte sequence (30_encoding.md R48, R54, R58). -/

namespace Sys2Proof.Machine

/-- Flipping bit 7 does not show under the checksum's mask (30_encoding.md R48). -/
theorem xor_top_and_mask (b : Byte) : (b ^^^ 0x80#8) &&& 0x7F#8 = b &&& 0x7F#8 := by
  revert b; decide

theorem xor7_snoc (bs : List Byte) (c : Byte) : xor7 (bs ++ [c]) = xor7 bs ^^^ (c &&& 0x7F#8) := by
  simp [xor7_append]

/-- Settles O9: XOR7 of the whole is XOR7 of the rest against the last byte's low 7 bits. -/
theorem checksumByteClosesTheFrame : Obligations.ChecksumByteClosesTheFrame := by
  intro bs c
  refine ⟨validate_iff _, ?_, ?_⟩
  · rw [validate_iff, xor7_snoc, BitVec.xor_eq_zero_iff, eq_comm]
  · rw [validate, validate, xor7_snoc, xor7_snoc, xor_top_and_mask]

/-- Flipping header bit 7 keeps the length code (30_encoding.md R54). -/
theorem lengthCode_xor_top (b : Byte) : lengthCode (b ^^^ 0x80#8) = lengthCode b := by
  revert b; decide

/-- Flipping header bit 7 keeps the category (30_encoding.md R54). -/
theorem category_xor_top (b : Byte) : category (b ^^^ 0x80#8) = category b := by
  revert b; decide

/-- The category and byte 1 alone say what a routed type does: which kind it emits, or for which cause it drops
(42_demux.md R84, R85). -/
theorem exec_routeType_cases (c : BitVec 3) (b1 : Byte) :
    (∃ k, ∀ x n tail s, exec (routeType x c n b1 tail) s = .next (emit k (frameBytes x c n b1 tail) s)) ∨
      ∃ cause, ∀ x n tail s,
        exec (routeType x c n b1 tail) s = .next (dropCandidate cause (frameBytes x c n b1 tail) s) := by
  rcases category_cases c with rfl | rfl | rfl | rfl | rfl | rfl | rfl | rfl
  case inr.inl =>
    -- C = 1: byte 1 decides (42_demux.md R85)
    by_cases h1 : b1 = 0x81#8
    · subst h1
      exact .inl ⟨.interval, fun _ _ _ _ => rfl⟩
    · by_cases h2 : b1 = 0x82#8
      · subst h2
        exact .inl ⟨.distance, fun _ _ _ _ => rfl⟩
      · exact .inr ⟨.subtype, fun x n tail s => by rw [routeType_speedUnrecognized x n b1 tail h1 h2]; rfl⟩
  case inr.inr.inl => exact .inl ⟨.voltage, fun _ _ _ _ => rfl⟩
  all_goals exact .inr ⟨.category, fun _ _ _ _ => rfl⟩

/-- DISPATCH of a whole frame emits one kind or drops for one cause, which any whole frame of the same category and byte 1
shares, each with its own bytes (42_demux.md R84, R85). -/
theorem dispatch_cases (c : BitVec 3) (b1 : Byte) :
    (∃ k, ∀ b0 tail s, category b0 = c → tail.length = (lengthCode b0).toNat →
        dispatch (b0 :: b1 :: tail) s = .next (emit k (b0 :: b1 :: tail) s)) ∨
      ∃ cause, ∀ b0 tail s, category b0 = c → tail.length = (lengthCode b0).toNat →
        dispatch (b0 :: b1 :: tail) s = .next (dropCandidate cause (b0 :: b1 :: tail) s) := by
  refine (exec_routeType_cases c b1).imp ?_ ?_ <;>
  · rintro ⟨k, hk⟩
    refine ⟨k, fun b0 tail s hc ht => ?_⟩
    subst hc
    rw [dispatch_wholeFrame s ht, hk, frameBytes, headerByte_fields]

/-- Settles O12: the length code, the category and the checksum's mask leave bit 7 out, and DISPATCH looks at the category
and byte 1 alone. -/
theorem headerBitSevenIsReadByNothing : Obligations.HeaderBitSevenIsReadByNothing := by
  intro b0 r s hw
  obtain ⟨_, b1, tail, ⟨⟩, ht⟩ := wholeFrame_cases hw
  have hn := lengthCode_xor_top b0
  have hc := category_xor_top b0
  refine ⟨by rw [frameLength, hn, frameLength], hc, by simp [validate, xor_top_and_mask], ?_⟩
  refine (dispatch_cases (category b0) b1).imp ?_ ?_ <;>
  · rintro ⟨k, hk⟩
    exact ⟨k, hk b0 tail s rfl ht, hk _ tail s hc (by rw [hn, ht])⟩

/-- Two whole frames at the front of one sequence are the same frame: the header they share says how long it is
(30_encoding.md R58). -/
theorem wholeFrame_append_inj {f f' t t' : List Byte} (hf : wholeFrame f = true) (hf' : wholeFrame f' = true)
    (h : f ++ t = f' ++ t') : f = f' ∧ t = t' := by
  obtain ⟨b0, b1, tail, rfl, hl⟩ := wholeFrame_cases hf
  obtain ⟨c0, c1, tail', rfl, hl'⟩ := wholeFrame_cases hf'
  obtain ⟨rfl, -⟩ := List.cons.inj h
  exact List.append_inj h (by simp [hl, hl'])

/-- A sequence that begins with a whole frame is no residual (40_assembler.md R67). -/
theorem isResidual_wholeFrame_append {f : List Byte} (hf : wholeFrame f = true) (t : List Byte) :
    isResidual (f ++ t) = false := by
  obtain ⟨b0, b1, tail, rfl, hl⟩ := wholeFrame_cases hf
  simp [isResidual, frameLength, hl]

/-- What follows the first frame of a cut is cut into the rest. -/
theorem CutsInto.uncons {p r f : List Byte} {fs : List (List Byte)} (h : CutsInto p (f :: fs) r) :
    wholeFrame f = true ∧ ∃ q, p = f ++ q ∧ CutsInto q fs r := by
  obtain ⟨rfl, hfs, hr⟩ := h
  obtain ⟨hf, hfs⟩ := List.forall_mem_cons.mp hfs
  exact ⟨hf, fs.flatten ++ r, by simp, rfl, hfs, hr⟩

/-- A cut into no frame is the residual itself. -/
theorem CutsInto.eq_residual {p r : List Byte} (h : CutsInto p [] r) : p = r :=
  h.1

/-- A sequence that a cut takes a frame from is no residual. -/
theorem CutsInto.not_residual_of_cons {p r f : List Byte} {fs : List (List Byte)} (h : CutsInto p (f :: fs) r) :
    isResidual p = false := by
  obtain ⟨hf, q, rfl, -⟩ := h.uncons
  exact isResidual_wholeFrame_append hf q

/-- A byte sequence cuts in one way only (30_encoding.md R58, 40_assembler.md R67). -/
theorem CutsInto.unique {p r r' : List Byte} {fs fs' : List (List Byte)} (h : CutsInto p fs r)
    (h' : CutsInto p fs' r') : fs' = fs ∧ r' = r := by
  induction fs generalizing p fs' with
  | nil =>
    obtain rfl := h.eq_residual
    cases fs' with
    | nil => exact ⟨rfl, h'.eq_residual.symm⟩
    | cons f' fs' => exact absurd h.residual (by simp [h'.not_residual_of_cons])
  | cons f fs ih =>
    cases fs' with
    | nil =>
      obtain rfl := h'.eq_residual
      exact absurd h'.residual (by simp [h.not_residual_of_cons])
    | cons f' fs' =>
      obtain ⟨hf, q, rfl, hq⟩ := h.uncons
      obtain ⟨hf', q', he, hq'⟩ := h'.uncons
      obtain ⟨rfl, rfl⟩ := wholeFrame_append_inj hf hf' he
      obtain ⟨rfl, rfl⟩ := ih hq hq'
      exact ⟨rfl, rfl⟩

/-- Settles O29: there is a cut, and no second one. -/
theorem everyByteSequenceCutsInOneWay : Obligations.EveryByteSequenceCutsInOneWay := by
  intro p
  obtain ⟨fs, r, h⟩ := exists_cutsInto p
  exact ⟨fs, r, h, fun _ _ h' => h.unique h'⟩

end Sys2Proof.Machine
end

section
/-! PROOFS. One FEED, in the order of 40_assembler.md R63: the time test, the stale test, then the loop on the kept
bytes and the chunk. -/

namespace Sys2Proof.Machine

/-- DISPATCH of bytes that decode is their type's meaning (42_demux.md R83). -/
theorem dispatch_of_decode {f rest : List Byte} {i : Instr} (h : decode f = .ok (i, rest)) (s : State) :
    dispatch f s = exec i s := by
  rw [dispatch, h]

/-- The accepted candidate's meaning runs, then Consume, then the loop goes on (40_assembler.md R68, R69). -/
theorem finishCandidate_accepted_andThen_extract {s : State} {f rest : List Byte} {i : Instr} (hok : s.ok = true)
    (hd : decode f = .ok (i, rest)) :
    andThen (finishCandidate f s) extract = andThen (exec i s) fun t => extract (consume f.length t) := by
  rw [finishCandidate, if_pos hok, dispatch_of_decode hd, andThen_assoc]
  rfl

theorem step_of_ok {s : State} (hok : s.ok = true) : step s = resumeFeed s :=
  if_pos hok

/-- Settles O21: the step at an accepted candidate finishes it, and the loop finishes the candidate it has just
judged. -/
theorem stepRunsTheDecodedInstruction : Obligations.StepRunsTheDecodedInstruction := by
  constructor
  · intro s f i hok hc hd
    rw [step_of_ok hok, resumeFeed, hc, withRead_ok, finishCandidate_accepted_andThen_extract hok hd]
  · intro s f i hc hv hd
    rw [extract_candidate hc, finishCandidate_accepted_andThen_extract hv hd, judge, hv]

/-- Settles O22: the step takes the FEED, and a FEED on time to a stamped buffer is the loop on what it keeps and
brings. -/
theorem feedTestsThenAppendsThenExtracts : Obligations.FeedTestsThenAppendsThenExtracts := by
  intro s now chunk rest ha ho hs
  rw [step_feed ha]
  exact feed_onTime chunk ho hs

/-- Settles O25: a FEED before the last one is not on time, so it is refused. -/
theorem backwardFeedIsRefused : Obligations.BackwardFeedIsRefused :=
  fun _ _ _ _ _ ha ht hlt => step_feed_late ha (not_onTime_iff.mpr ⟨_, ht, hlt⟩)

/-- Settles O28: the loop leaves exactly the records of the cut. -/
theorem feedDispatchesExactlyItsFrames : Obligations.FeedDispatchesExactlyItsFrames :=
  fun _ _ _ _ _ _ ha ho hs hc => step_feed_of_cutsInto ha ho hs hc

/-- Settles O24: a residual is cut into no frame, so no record is left. -/
theorem partialFrameWaits : Obligations.PartialFrameWaits := by
  intro s now chunk rest ha ho hs hr
  rw [step_feed_of_cutsInto ha ho hs (cutsInto_of_isResidual hr), afterFeed, recordFrames_nil]

/-- Settles O32: between events the buffer is a residual, and so is what the stale test keeps of it. -/
theorem emptyFeedOnlyEvictsAndStamps : Obligations.EmptyFeedOnlyEvictsAndStamps := by
  intro s now rest hi ha ho
  have hkept : keptBytes now s ++ [] = keptBytes now s := List.append_nil _
  have hr : isResidual (keptBytes now s ++ []) = true := by
    rw [hkept]
    exact isResidual_keptBytes now hi.bufferResidual
  rw [partialFrameWaits s now [] rest ha ho hi.bufferStamped hr, hkept]

end Sys2Proof.Machine
end

section
/-! PROOFS. The stale test (40_assembler.md R65, R75): when it evicts, and a FEED after an eviction made early. -/

namespace Sys2Proof.Machine

/-- A stamped buffer is evicted exactly when it is not empty and more than `T_IN` has passed (40_assembler.md R65). -/
theorem evictsAt_iff {now t : Nat} {s : State} (ht : s.lastT = some t) :
    evictsAt now s = true ↔ s.buf ≠ [] ∧ 60 < now - t := by
  simp [evictsAt, ht, Config.tIn]

theorem evictsAt_empty {now : Nat} {s : State} (hb : s.buf = []) : evictsAt now s = false :=
  Bool.eq_false_iff.mpr fun he => buf_ne_nil_of_evictsAt he hb

/-- Up to `T_IN` after the last FEED nothing is evicted: the comparison is strict (40_assembler.md R65). -/
theorem evictsAt_within {now t : Nat} {s : State} (ht : s.lastT = some t) (hgap : now - t ≤ 60) :
    evictsAt now s = false :=
  Bool.eq_false_iff.mpr fun he => Nat.not_lt.mpr hgap ((evictsAt_iff ht).mp he).2

theorem keptBytes_of_evictsAt {now : Nat} {s : State} (he : evictsAt now s = true) : keptBytes now s = [] :=
  if_pos he

theorem keptBytes_of_not_evictsAt {now : Nat} {s : State} (he : evictsAt now s = false) : keptBytes now s = s.buf :=
  if_neg (by simp [he])

theorem evictTrace_of_evictsAt {now : Nat} {s : State} (he : evictsAt now s = true) :
    evictTrace now s = [.evict s.buf.length] :=
  if_pos he

theorem evictTrace_of_not_evictsAt {now : Nat} {s : State} (he : evictsAt now s = false) : evictTrace now s = [] :=
  if_neg (by simp [he])

/-- A stale buffer carries the time of an earlier FEED. -/
theorem exists_lastT_of_evictsAt {now : Nat} {s : State} (he : evictsAt now s = true) :
    ∃ t, s.lastT = some t ∧ 60 < now - t := by
  obtain ⟨t, ht⟩ := (lastV_iff s).mp (lastV_of_evictsAt he)
  exact ⟨t, ht, ((evictsAt_iff ht).mp he).2⟩

/-- A FEED that evicts is never a refused one. -/
theorem onTime_of_evictsAt {now : Nat} {s : State} (he : evictsAt now s = true) : onTime now s := by
  obtain ⟨t, ht, hgap⟩ := exists_lastT_of_evictsAt he
  intro u hu
  obtain rfl : t = u := Option.some.inj (ht.symm.trans hu)
  omega

/-- What is stale stays stale until the next FEED (40_assembler.md R75). -/
theorem evictsAt_mono {early now : Nat} {s : State} (hle : early ≤ now) (he : evictsAt early s = true) :
    evictsAt now s = true := by
  obtain ⟨t, ht, hgap⟩ := exists_lastT_of_evictsAt he
  exact (evictsAt_iff ht).mpr ⟨buf_ne_nil_of_evictsAt he, by omega⟩

/-- A FEED that evicts is the FEED from the buffer emptied beforehand, the eviction traced (40_assembler.md R65). -/
theorem feed_of_evictsAt {now : Nat} {s : State} (chunk : List Byte) (he : evictsAt now s = true) :
    feed now chunk s = feed now chunk { s with buf := [], trace := s.trace ++ [.evict s.buf.length] } := by
  have ho := onTime_of_evictsAt he
  have he' : evictsAt now { s with buf := [], trace := s.trace ++ [.evict s.buf.length] } = false := evictsAt_empty rfl
  rw [feed_onTime chunk ho fun _ => lastV_of_evictsAt he, feed_onTime chunk (by exact ho) fun hb => absurd rfl hb,
    keptBytes_of_evictsAt he, keptBytes_of_not_evictsAt he', evictTrace_of_evictsAt he,
    evictTrace_of_not_evictsAt he', List.append_nil]

/-- A FEED on time that does not evict takes the buffered bytes as if they arrived before its chunk
(40_assembler.md R65, R66). -/
theorem feed_of_not_evictsAt {now : Nat} {s : State} (chunk : List Byte) (ho : onTime now s)
    (hs : s.buf ≠ [] → s.lastV = true) (he : evictsAt now s = false) :
    feed now chunk s = feed now (s.buf ++ chunk) { s with buf := [] } := by
  have he' : evictsAt now { s with buf := [] } = false := evictsAt_empty rfl
  rw [feed_onTime chunk ho hs, feed_onTime _ (by exact ho) fun hb => absurd rfl hb, keptBytes_of_not_evictsAt he,
    keptBytes_of_not_evictsAt he', evictTrace_of_not_evictsAt he, evictTrace_of_not_evictsAt he', List.nil_append]

/-- A FEED on time that does not evict traces nothing but drops (60_exceptions.md R95). -/
theorem step_feed_trace_drops {s u : State} {now : Nat} {chunk : List Byte} {rest : List Event}
    (ha : awaits (.feed now chunk) rest s) (ho : onTime now s) (he : evictsAt now s = false)
    (h : step s = .next u) : ∃ ds, u.trace = s.trace ++ ds ∧ ∀ d ∈ ds, ∃ c f, d = TraceEvent.drop c f := by
  obtain ⟨fs, r, -, rfl⟩ := step_feed_eq_next ha ho h
  refine ⟨fs.filterMap dropOf, by simp [evictTrace_of_not_evictsAt he], fun d hd => ?_⟩
  obtain ⟨f, -, hfd⟩ := List.mem_filterMap.mp hd
  obtain ⟨c, rfl⟩ := dropOf_eq_some hfd
  exact ⟨c, f, rfl⟩

/-- Settles O26: past `T_IN` the FEED evicts, up to `T_IN` and from an empty buffer it does not. -/
theorem staleTestIsStrictAndMadeOncePerFeed : Obligations.StaleTestIsStrictAndMadeOncePerFeed := by
  intro s now t chunk rest ha ht hle
  have ho : onTime now s := fun u hu => Option.some.inj (ht.symm.trans hu) ▸ hle
  have hs : s.buf ≠ [] → s.lastV = true := fun _ => (lastV_iff s).mpr ⟨t, ht⟩
  refine ⟨fun hb hgap => ?_, fun hgap => ?_, fun hk u h => ?_⟩
  · have he : evictsAt now s = true := (evictsAt_iff ht).mpr ⟨hb, hgap⟩
    rw [step_feed ha, step_feed (by exact ha)]
    exact feed_of_evictsAt chunk he
  · have he := evictsAt_within ht hgap
    have ha' : awaits (.feed now (s.buf ++ chunk)) rest
        { s with buf := [], inputs := .feed now (s.buf ++ chunk) :: rest } := ⟨ha.1, rfl⟩
    rw [step_feed ha, step_feed ha']
    exact feed_of_not_evictsAt chunk ho hs he
  · exact step_feed_trace_drops ha ho (hk.elim evictsAt_empty (evictsAt_within ht)) h

/-- The stale test answers a next state only on a buffer that is empty or stamped (10_state.md R22). -/
theorem stamped_of_evictStale {now : Nat} {s s' : State} (h : evictStale now s = .next s') :
    s.buf ≠ [] → s.lastV = true := by
  intro hb
  obtain ⟨isStale, hstale, -⟩ := withRead_eq_next_iff.mp h
  by_contra hv
  have ht : s.lastT = none := (lastV_eq_false_iff s).mp (by simpa using hv)
  simp [stale, hb, readLastT, ht, Except.map] at hstale

/-- The stale test leaves the state alone, or empties a stale buffer with the eviction traced (40_assembler.md R65). -/
theorem evictStale_cases {now : Nat} {s s' : State} (h : evictStale now s = .next s') :
    s' = s ∨ evictsAt now s = true ∧ s' = { s with buf := [], trace := s.trace ++ [.evict s.buf.length] } := by
  rw [evictStale_eq (stamped_of_evictStale h), Host.Outcome.next.injEq] at h
  subst h
  cases he : evictsAt now s with
  | false => left; rw [keptBytes_of_not_evictsAt he, evictTrace_of_not_evictsAt he, List.append_nil]
  | true => right; rw [keptBytes_of_evictsAt he, evictTrace_of_evictsAt he]; exact ⟨rfl, rfl⟩

/-- Settles O35: an early eviction that does something finds the buffer stale, and so would the FEED. -/
theorem eagerEvictionGivesTheSameFeed : Obligations.EagerEvictionGivesTheSameFeed := by
  intro s s' early now chunk hle h
  rcases evictStale_cases h with rfl | ⟨he, rfl⟩
  · rfl
  · exact (feed_of_evictsAt chunk (evictsAt_mono hle he)).symm

end Sys2Proof.Machine
end

section
/-! PROOFS. A chunk in several parts (40_assembler.md R73, R74): cuts follow one another, and so do the FEEDs. -/

namespace Sys2Proof.Machine

/-- The cut of a stream goes on from its residual (40_assembler.md R73). -/
theorem CutsInto.append {p q r r' : List Byte} {fs fs' : List (List Byte)} (h : CutsInto p fs r)
    (h' : CutsInto (r ++ q) fs' r') : CutsInto (p ++ q) (fs ++ fs') r' := by
  obtain ⟨rfl, hfs, -⟩ := h
  obtain ⟨heq, hfs', hr'⟩ := h'
  refine ⟨by rw [List.append_assoc, heq, List.flatten_append, List.append_assoc], fun f hf => ?_, hr'⟩
  exact (List.mem_append.mp hf).elim (hfs f) (hfs' f)

/-- Two FEEDs within `T_IN` leave the records of both, as one FEED would; only the timestamp is the later one's. -/
theorem afterFeed_afterFeed {t1 t2 : Nat} {rest rest' : List Event} {fs fs' : List (List Byte)} {r r' : List Byte}
    {s : State} (he : evictsAt t2 (afterFeed t1 rest fs r s) = false) :
    afterFeed t2 rest' fs' r' (afterFeed t1 rest fs r s) =
      { afterFeed t1 rest' (fs ++ fs') r' s with lastT := some t2 } := by
  rw [afterFeed, evictTrace_of_not_evictsAt he]
  simp [afterFeed, recordFrames]

/-- A FEED on time, and then one at most `T_IN` later with nothing between, answer what one FEED of both chunks at the
first time answers, but for the timestamp (40_assembler.md R73, R74). -/
theorem step_feed_append {s : State} {t1 t2 : Nat} {c1 : List Byte} {es : List Event} (c2 : List Byte)
    (rest : List Event) (ha : awaits (.feed t1 c1) es s) (ho : onTime t1 s) (hs : s.buf ≠ [] → s.lastV = true)
    (hle : t1 ≤ t2) (hgap : t2 - t1 ≤ 60) :
    ∃ fs r fs' r', step s = .next (afterFeed t1 es fs r s) ∧
      step { s with inputs := .feed t1 (c1 ++ c2) :: rest } = .next (afterFeed t1 rest fs' r' s) ∧
      step { afterFeed t1 es fs r s with inputs := .feed t2 c2 :: rest } =
        .next { afterFeed t1 rest fs' r' s with lastT := some t2 } := by
  obtain ⟨fs, r, hc⟩ := exists_cutsInto (keptBytes t1 s ++ c1)
  obtain ⟨fs', r', hc'⟩ := exists_cutsInto (r ++ c2)
  have he : evictsAt t2 (afterFeed t1 es fs r s) = false := evictsAt_within rfl hgap
  have hkept : keptBytes t2 (afterFeed t1 es fs r s) = r := keptBytes_of_not_evictsAt he
  have hcut := hc.append hc'
  rw [List.append_assoc] at hcut
  refine ⟨fs, r, fs ++ fs', r', step_feed_of_cutsInto ha ho hs hc, ?_, ?_⟩
  · exact step_feed_of_cutsInto ⟨ha.1, rfl⟩ (by exact ho) (by exact hs) hcut
  · rw [← afterFeed_afterFeed he]
    refine step_feed_of_cutsInto ⟨ha.1, rfl⟩ (fun t ht => ?_) (fun _ => rfl) ?_
    · obtain rfl : t1 = t := Option.some.inj ht
      exact hle
    · exact hkept.symm ▸ hc'

/-- A state that awaits an event is unchanged by presenting that event. -/
theorem awaits_inputs {e : Event} {rest : List Event} {s : State} (h : awaits e rest s) :
    { s with inputs := e :: rest } = s := by
  rw [← h.2]

/-- Settles O33: both refuse, both fault, or the second part's FEED finds nothing stale and goes on from the first's
residual. -/
theorem splittingAChunkChangesNothing : Obligations.SplittingAChunkChangesNothing := by
  intro s now c1 c2 rest ha
  have ha1 : awaits (.feed now c1) (.feed now c2 :: rest) { s with inputs := .feed now c1 :: .feed now c2 :: rest } :=
    ⟨ha.1, rfl⟩
  by_cases ho : onTime now s
  · by_cases hs : s.buf ≠ [] → s.lastV = true
    · obtain ⟨fs, r, fs', r', h1, hwhole, h2⟩ := step_feed_append c2 rest ha1 ho hs le_rfl (by simp)
      rw [awaits_inputs ha] at hwhole
      rw [h1, hwhole, andThen_next]
      exact h2
    · rw [Classical.not_imp, Bool.not_eq_true] at hs
      obtain ⟨hb, hv⟩ := hs
      rw [step_feed_unstamped ha hb hv, step_feed_unstamped ha1 hb hv, andThen_fault]
  · rw [step_feed_late ha ho, step_feed_late ha1 ho, andThen_next]
    exact step_feed_late ⟨ha.1, rfl⟩ ho

/-- Settles O34, by induction on the parts: the first part's FEED leaves a state from which the others are already one
FEED at the second part's time, and that FEED joins the first. -/
theorem fragmentationWithinTheTimeoutIsInvisible : Obligations.FragmentationWithinTheTimeoutIsInvisible := by
  intro s t1 c1 parts rest hok hin ho hs hchain
  induction parts generalizing s t1 c1 with
  | nil =>
    have ha : awaits (.feed t1 c1) rest s := ⟨hok, hin⟩
    obtain ⟨fs, r, hc⟩ := exists_cutsInto (keptBytes t1 s ++ c1)
    have hstep := step_feed_of_cutsInto ha ho hs hc
    refine ⟨afterFeed t1 rest fs r s, ?_, ?_⟩
    · rwa [List.flatMap_nil, List.append_nil, awaits_inputs ha]
    · rw [List.length_nil, runSteps, hstep]
      rfl
  | cons p parts ih =>
    obtain ⟨t2, c2⟩ := p
    obtain ⟨⟨hle, hgap⟩, hchain⟩ := List.isChain_cons_cons.mp hchain
    have ha : awaits (.feed t1 c1) (.feed t2 c2 :: (parts.map fun p => Event.feed p.1 p.2) ++ rest) s := ⟨hok, hin⟩
    obtain ⟨fs, r, fs', r', h1, hwhole, h2⟩ :=
      step_feed_append (c2 ++ parts.flatMap Prod.snd) rest ha ho hs hle hgap
    obtain ⟨v, hv, hrun⟩ := ih (afterFeed t1 _ fs r s) t2 c2 hok rfl
      (fun t ht => Option.some.inj ht ▸ hle) (fun _ => rfl) hchain
    rw [h2, Host.Outcome.next.injEq] at hv
    subst hv
    refine ⟨afterFeed t1 rest fs' r' s, hwhole, ?_⟩
    rw [List.length_cons, runSteps, h1, andThen_next]
    exact hrun

end Sys2Proof.Machine
end

section
/-! PROOFS. VALIDATE (41_validator.md): what its verdict says of the bytes, which corruptions it catches, and what the
loop does with a candidate it refuses. -/

namespace Sys2Proof.Machine

/-- The mask covers bits 6:0 (41_validator.md R77). -/
theorem getLsbD_mask {j : Nat} (hj : j < 7) : (0x7F#8).getLsbD j = true := by
  revert j; decide

/-- Bit `j` of XOR7 is the parity of bit `j` over the bytes (41_validator.md R77). -/
theorem getLsbD_xor7_eq_false_iff (f : List Byte) {j : Nat} (hj : j < 7) :
    (xor7 f).getLsbD j = false ↔ Even (f.countP fun b => b.getLsbD j) := by
  induction f with
  | nil => simp
  | cons b f ih =>
    rw [xor7_cons, BitVec.getLsbD_xor, BitVec.getLsbD_and, getLsbD_mask hj, List.countP_cons]
    cases b.getLsbD j with
    | false => simpa using ih
    | true => simp [Nat.even_add_one, ← ih]

/-- XOR7 is zero when each of the seven bits it covers is zero (41_validator.md R77). -/
theorem xor7_eq_zero_iff (f : List Byte) : xor7 f = 0#8 ↔ ∀ j < 7, (xor7 f).getLsbD j = false := by
  constructor
  · rintro h j -
    simp [h]
  · intro h
    refine BitVec.eq_of_getLsbD_eq fun j hj => ?_
    rw [BitVec.getLsbD_zero]
    rcases Nat.lt_succ_iff_lt_or_eq.mp hj with hj | rfl
    · exact h j hj
    · exact xor7_top f

/-- Settles O8: the verdict is XOR7 = 0, and each bit of XOR7 is a parity. -/
theorem validateIsEvenParityOfTheLowSevenBits : Obligations.ValidateIsEvenParityOfTheLowSevenBits := by
  intro f
  refine ⟨validate_iff f, ?_⟩
  rw [validate_iff, xor7_eq_zero_iff]
  exact forall₂_congr fun _ hj => getLsbD_xor7_eq_false_iff f hj

theorem and_mask_xor (a b : Byte) : (a ^^^ b) &&& 0x7F#8 = (a &&& 0x7F#8) ^^^ (b &&& 0x7F#8) := by
  ext k hk
  simp [Bool.and_xor_distrib_right]

/-- The mask keeps a single bit of bits 6:0, which is not zero. -/
theorem bit_and_mask {j : Nat} (hj : j < 7) : (1#8 <<< j) &&& 0x7F#8 = 1#8 <<< j ∧ 1#8 <<< j ≠ 0#8 := by
  revert j; decide

/-- A flipped bit changes XOR7 by that bit, as far as the mask covers it (41_validator.md R80). -/
theorem xor7_flipBit {f : List Byte} {i : Nat} (j : Nat) (hi : i < f.length) :
    xor7 (flipBit f i j) = xor7 f ^^^ ((1#8 <<< j) &&& 0x7F#8) := by
  unfold flipBit
  induction f generalizing i with
  | nil => simp at hi
  | cons b f ih =>
    cases i with
    | zero =>
      rw [List.modify_zero_cons, xor7_cons, xor7_cons, and_mask_xor]
      ac_rfl
    | succ i =>
      rw [List.modify_succ_cons, xor7_cons, xor7_cons, ih (Nat.lt_of_succ_lt_succ hi), BitVec.xor_assoc]

theorem lengthCode_xor (a b : Byte) : lengthCode (a ^^^ b) = lengthCode a ^^^ lengthCode b := by
  ext k hk
  simp [lengthCode]

/-- A single bit has an empty length code exactly when it lies above bits 3:0 (30_encoding.md R46). -/
theorem lengthCode_bit_eq_zero_iff {j : Nat} (hj : j < 8) : lengthCode (1#8 <<< j) = 0#4 ↔ 4 ≤ j := by
  revert j; decide

/-- Flipping a header bit keeps the frame's length exactly when the bit lies above the length code
(30_encoding.md R58). -/
theorem frameLength_xor_bit_iff (b0 : Byte) {j : Nat} (hj : j < 8) :
    frameLength (b0 ^^^ 1#8 <<< j) = frameLength b0 ↔ 4 ≤ j := by
  rw [← lengthCode_bit_eq_zero_iff hj, frameLength, frameLength, Nat.add_right_cancel_iff, ← BitVec.toNat_eq,
    lengthCode_xor]
  simp

theorem wholeFrame_cons_iff {b0 : Byte} {r : List Byte} :
    wholeFrame (b0 :: r) = true ↔ r.length + 1 = frameLength b0 :=
  beq_iff_eq

/-- A whole frame with one bit flipped is still whole exactly when the bit is none of header bits 3:0
(41_validator.md R80). -/
theorem wholeFrame_flipBit_iff {f : List Byte} {i j : Nat} (hw : wholeFrame f = true) (hj : j < 8) :
    wholeFrame (flipBit f i j) = true ↔ ¬(i = 0 ∧ j < 4) := by
  obtain ⟨b0, b1, tail, rfl, -⟩ := wholeFrame_cases hw
  have hlen := wholeFrame_cons_iff.mp hw
  cases i with
  | zero =>
    rw [flipBit, List.modify_zero_cons, wholeFrame_cons_iff, hlen, eq_comm, frameLength_xor_bit_iff b0 hj]
    simp
  | succ i =>
    rw [flipBit, List.modify_succ_cons, wholeFrame_cons_iff, List.length_modify]
    simpa using hlen

/-- Settles O10: the flipped bit is all that is left of XOR7, and only the length code says whether the frame is
whole. -/
theorem singleBitFlipIsCaughtExceptBitSeven : Obligations.SingleBitFlipIsCaughtExceptBitSeven := by
  intro f i j hw hv hi hj
  have hx : xor7 (flipBit f i j) = (1#8 <<< j) &&& 0x7F#8 := by
    rw [xor7_flipBit j hi, (validate_iff f).mp hv, BitVec.zero_xor]
  refine ⟨fun hout => ⟨(wholeFrame_flipBit_iff hw hj).mpr hout, fun hlow => ?_, ?_⟩, fun hin => ?_⟩
  · obtain ⟨hmask, hne⟩ := bit_and_mask (Nat.lt_succ_of_le hlow)
    rw [hmask] at hx
    exact ⟨hx, (validate_eq_false_iff _).mpr (hx ▸ hne)⟩
  · rintro rfl
    exact (validate_iff _).mpr hx
  · exact Bool.eq_false_iff.mpr fun h => (wholeFrame_flipBit_iff hw hj).mp h hin

/-- The flips between two frames of one length XOR to the change of XOR7 (41_validator.md R81). -/
theorem xor7_zipWith_xor {f g : List Byte} (h : f.length = g.length) :
    xor7 (List.zipWith (fun a b => a ^^^ b) f g) = xor7 f ^^^ xor7 g := by
  induction f generalizing g with
  | nil => simp [List.length_eq_zero_iff.mp h.symm]
  | cons a f ih =>
    obtain _ | ⟨b, g⟩ := g
    · simp at h
    · rw [List.zipWith_cons_cons, xor7_cons, xor7_cons, xor7_cons, ih (Nat.succ.inj h), and_mask_xor]
      ac_rfl

/-- XOR7 does not see the order of the bytes (41_validator.md R77). -/
theorem xor7_perm {f g : List Byte} (h : f.Perm g) : xor7 f = xor7 g := by
  induction h with
  | nil => rfl
  | cons b _ ih => rw [xor7_cons, xor7_cons, ih]
  | swap a b f =>
    simp only [xor7_cons]
    ac_rfl
  | trans _ _ ih1 ih2 => exact ih1.trans ih2

/-- Settles O11: over a valid frame the flips have the corrupted frame's XOR7, so O8's parity applies to them; and XOR7
does not see an order. -/
theorem evenFlipsAndReorderingsAreNotDetected : Obligations.EvenFlipsAndReorderingsAreNotDetected := by
  constructor
  · intro f g hlen hv
    have hflips : xor7 (List.zipWith (fun a b => a ^^^ b) f g) = xor7 g := by
      rw [xor7_zipWith_xor hlen, (validate_iff f).mp hv, BitVec.zero_xor]
    rw [← (validateIsEvenParityOfTheLowSevenBits _).2, validate_iff, validate_iff, hflips]
  · intro f g h
    rw [validate, validate, xor7_perm h]

/-- Settles O23: the loop judges the candidate at the front, and the record of an invalid one is its drop. -/
theorem invalidCandidateIsDroppedWhole : Obligations.InvalidCandidateIsDroppedWhole := by
  intro s f hc hv
  have hw : wholeFrame f = true := (candidate_eq_ok_iff.mp hc).1
  rw [extract_candidate hc, finishCandidate_judge hw, recordFrames_invalid hw hv]
  rfl

end Sys2Proof.Machine
end

section
/-! PROOFS. DISPATCH (42_demux.md): which record a valid whole frame leaves, and by which of its bits. -/

namespace Sys2Proof.Machine

/-- The outputs after one frame's record: its dispatch event, if it has one, is added. -/
theorem recordFrames_singleton_out (f : List Byte) (s : State) :
    (recordFrames [f] s).out = s.out ++ (dispatchEventOf f).toList := by
  cases he : dispatchEventOf f <;> simp [he]

/-- The trace after one frame's record: its drop, if it has one, is added. -/
theorem recordFrames_singleton_trace (f : List Byte) (s : State) :
    (recordFrames [f] s).trace = s.trace ++ (dropOf f).toList := by
  cases hd : dropOf f <;> simp [hd]

/-- A frame whose record is an emission has that event by the masks of R52. -/
theorem dispatchEventOf_of_emit {k : Kind} {f : List Byte} {s : State} (h : emit k f s = recordFrames [f] s) :
    dispatchEventOf f = some { kind := k, len := f.length, frame := f } := by
  have ho := congrArg State.out h
  rw [emit_out, recordFrames_singleton_out, List.append_cancel_left_eq, eq_comm] at ho
  exact Option.toList_eq_singleton_iff.mp ho

/-- A frame whose record is a drop has that drop, and no event, by the masks of R52. -/
theorem dropOf_of_dropCandidate {c : DropCause} {f : List Byte} {s : State}
    (h : dropCandidate c f s = recordFrames [f] s) : dispatchEventOf f = none ∧ dropOf f = some (.drop c f) := by
  have ho := congrArg State.out h
  have ht := congrArg State.trace h
  rw [dropCandidate_out, recordFrames_singleton_out, List.self_eq_append_right] at ho
  rw [dropCandidate_trace, recordFrames_singleton_trace, List.append_cancel_left_eq, eq_comm] at ht
  exact ⟨Option.toList_eq_nil_iff.mp ho, Option.toList_eq_singleton_iff.mp ht⟩

/-- Settles O19: DISPATCH emits or drops, and what it leaves is the record that the masks give. -/
theorem dispatchFollowsTheTypeMap : Obligations.DispatchFollowsTheTypeMap := by
  intro f s hw hv
  have hrec := dispatch_valid hw hv s
  obtain ⟨b0, b1, tail, rfl, ht⟩ := wholeFrame_cases hw
  rcases dispatch_cases (category b0) b1 with ⟨k, hk⟩ | ⟨c, hc⟩
  · have hemit := hk b0 tail s rfl ht
    exact .inl ⟨_, dispatchEventOf_of_emit (Host.Outcome.next.inj (hemit.symm.trans hrec)), hemit⟩
  · have hdrop := hc b0 tail s rfl ht
    obtain ⟨hnone, hd⟩ := dropOf_of_dropCandidate (Host.Outcome.next.inj (hdrop.symm.trans hrec))
    exact .inr ⟨hnone, _, hd, hdrop⟩

/-- The dispatch event of a valid frame, by the category and byte 1 of its own bytes (42_demux.md R84, R85). -/
theorem dispatchEventOf_valid {b0 b1 : Byte} {tail : List Byte} (hv : validate (b0 :: b1 :: tail) = true) :
    dispatchEventOf (b0 :: b1 :: tail) =
      if category b0 = 1#3 ∧ b1 = 0x81#8 then some ⟨.interval, tail.length + 2, b0 :: b1 :: tail⟩
      else if category b0 = 1#3 ∧ b1 = 0x82#8 then some ⟨.distance, tail.length + 2, b0 :: b1 :: tail⟩
      else if category b0 = 2#3 then some ⟨.voltage, tail.length + 2, b0 :: b1 :: tail⟩
      else none := by
  have h := @dispatchEventOf_header (topBit b0) (category b0) (lengthCode b0) b1 tail
  rw [headerByte_fields] at h
  exact h ((validate_iff _).mp hv)

/-- The category in the shifted and masked header byte (42_demux.md R84), and in the field of R46. -/
theorem shifted_header_eq_iff (b0 : Byte) :
    ((b0 >>> 4) &&& 0x07#8 = 1#8 ↔ category b0 = 1#3) ∧ ((b0 >>> 4) &&& 0x07#8 = 2#8 ↔ category b0 = 2#3) := by
  revert b0; decide

/-- Settles O48: what DISPATCH adds is the frame's dispatch event, which the category and byte 1 choose. -/
theorem categoryThenSubTypeSelectTheOutput : Obligations.CategoryThenSubTypeSelectTheOutput := by
  rintro f tl b0 b1 s rfl hw hv
  obtain ⟨hspeed, hvoltage⟩ := shifted_header_eq_iff b0
  refine ⟨_, dispatch_valid hw hv s, ?_⟩
  simp only [recordFrames_singleton_out, dispatchEventOf_valid hv, ne_eq, hspeed, hvoltage]
  refine ⟨fun hc => ⟨?_, ?_, fun h1 h2 => ?_⟩, fun hc => ?_, fun h1 h2 => ?_⟩
  · rintro rfl
    simp [hc]
  · rintro rfl
    simp [hc]
  · simp [hc, h1, h2]
  · simp [hc]
  · simp [h1, h2]

end Sys2Proof.Machine
end

section
/-! PROOFS. The output sequence through every step (42_demux.md R92, R93). -/

namespace Sys2Proof.Machine

/-- No meaning takes an output back. -/
theorem exec_out {i : Instr} {s t : State} (h : exec i s = .next t) : s.out <+: t.out := by
  rcases exec_cases i s with ⟨k, he⟩ | ⟨c, he⟩ <;> (rw [he] at h; cases h)
  · exact List.prefix_append ..
  · exact List.prefix_rfl

/-- What follows the verdict takes no output back. -/
theorem finishCandidate_out {f : List Byte} {s t : State} (h : finishCandidate f s = .next t) : s.out <+: t.out := by
  obtain ⟨u, hu, ht⟩ := andThen_eq_next_iff.mp h
  cases ht
  suffices hp : s.out <+: u.out from hp
  split at hu
  · unfold dispatch at hu
    split at hu
    · exact exec_out hu
    · cases hu
  · cases hu
    exact List.prefix_rfl

/-- The end of a FEED takes no output back. -/
theorem resumeFeed_out {s t : State} (h : resumeFeed s = .next t) : s.out <+: t.out := by
  obtain ⟨f, -, h⟩ := withRead_eq_next_iff.mp h
  obtain ⟨u, hu, ht⟩ := andThen_eq_next_iff.mp h
  obtain ⟨fs, r, hc⟩ := exists_cutsInto u.buf
  rw [extract_of_cutsInto (finishCandidate_ok_refused hu).1 hc] at ht
  cases ht
  exact (finishCandidate_out hu).trans (List.prefix_append ..)

/-- A step from between events leaves the outputs alone, or takes a FEED and adds the dispatch events of whole frames
(60_exceptions.md R99). -/
theorem step_out_cases {s t : State} (hok : s.ok = false) (h : step s = .next t) :
    t.out = s.out ∨ ∃ now chunk rest, ∃ fs : List (List Byte), s.inputs = .feed now chunk :: rest ∧
      (∀ f ∈ fs, wholeFrame f = true) ∧ t.out = s.out ++ fs.filterMap dispatchEventOf := by
  rcases step_cases h with ⟨hok', -⟩ | ⟨-, -, rfl⟩ | ⟨rest, -, rfl⟩ | ⟨now, chunk, rest, -, -, rfl⟩ |
    ⟨now, chunk, rest, ha, ho, -⟩
  · rw [hok] at hok'
    cases hok'
  · exact .inl rfl
  · exact .inl rfl
  · exact .inl rfl
  · obtain ⟨fs, r, hc, rfl⟩ := step_feed_eq_next ha ho h
    exact .inr ⟨now, chunk, rest, fs, ha.2, fun _ => hc.wholeFrame_of_mem, rfl⟩

/-- Settles O37: with the verdict set the step finishes a FEED, and from between events only a FEED adds outputs. -/
theorem outputsAreNeverWithdrawn : Obligations.OutputsAreNeverWithdrawn := by
  intro s t h
  cases hok : s.ok with
  | true =>
    obtain ⟨es, hes⟩ := resumeFeed_out (step_of_ok hok ▸ h)
    exact ⟨es, hes.symm, fun _ => .inl rfl⟩
  | false =>
    rcases step_out_cases hok h with heq | ⟨now, chunk, rest, fs, hin, -, heq⟩
    · exact ⟨[], by simpa using heq, fun hne => absurd rfl hne⟩
    · exact ⟨_, heq, fun _ => .inr ⟨now, chunk, rest, hin⟩⟩

/-- Settles O38: what a FEED adds are the dispatch events of whole frames, and only a valid frame has one. -/
theorem dispatchedFramesAreValidAndWhole : Obligations.DispatchedFramesAreValidAndWhole := by
  intro s t hok h
  rcases step_out_cases hok h with heq | ⟨-, -, -, fs, -, hfs, heq⟩
  · exact ⟨[], by simpa using heq, by simp⟩
  · refine ⟨_, heq, fun e he => ?_⟩
    obtain ⟨f, hf, hfe⟩ := List.mem_filterMap.mp he
    obtain ⟨hx, rfl, hlen⟩ := dispatchEventOf_eq_some hfe
    have hw := hfs _ hf
    obtain ⟨b0, b1, tail, hbytes, -⟩ := wholeFrame_cases hw
    rw [hbytes] at hw
    exact ⟨hx, hlen, b0, b1 :: tail, hbytes, hbytes ▸ wholeFrame_cons_iff.mp hw⟩

end Sys2Proof.Machine
end

section
/-! PROOFS. The message types one by one (42_demux.md R86 to R90). -/

namespace Sys2Proof.Machine

/-- A frame whose tail fits has the length its length code declares (30_encoding.md R47). -/
theorem length_frameBytes {n : BitVec 4} {tail : List Byte} (x : Bool) (c : BitVec 3) (b1 : Byte)
    (h : tailFits n tail = true) : (frameBytes x c n b1 tail).length = n.toNat + 2 := by
  simp [frameBytes, tailFits_iff.mp h]

/-- Emitting a frame whose tail fits, as a record of its own bytes (42_demux.md R91). -/
theorem emit_frameBytes {n : BitVec 4} {tail : List Byte} (k : Kind) (x : Bool) (c : BitVec 3) (b1 : Byte)
    (h : tailFits n tail = true) (s : State) : emit k (frameBytes x c n b1 tail) s =
      { s with out := s.out ++ [{ kind := k, len := n.toNat + 2, frame := headerByte x c n :: b1 :: tail }] } := by
  rw [emit, length_frameBytes x c b1 h, frameBytes]

/-- The valid 2-byte Speed frames have 0x10 or 0x90 as byte 1, their checksum (42_demux.md R86, R89). -/
theorem byte1_of_validate_speed_two_bytes : ∀ (x : Bool) (b1 : Byte),
    validate [headerByte x 1#3 0#4, b1] = true → b1 = 0x10#8 ∨ b1 = 0x90#8 := by
  decide

/-- A valid Speed frame whose byte 1 is neither 0x10 nor 0x90 has more bytes after it (42_demux.md R86). -/
theorem three_le_of_validate_speed {x : Bool} {n : BitVec 4} {b1 : Byte} {tail : List Byte}
    (h : tailFits n tail = true) (h1 : b1 ≠ 0x10#8) (h2 : b1 ≠ 0x90#8)
    (hv : validate (headerByte x 1#3 n :: b1 :: tail) = true) : 3 ≤ n.toNat + 2 := by
  have hlen := tailFits_iff.mp h
  by_contra hlt
  have hn : n.toNat = 0 := by omega
  obtain rfl : n = 0#4 := BitVec.eq_of_toNat_eq hn
  obtain rfl : tail = [] := List.length_eq_zero_iff.mp hlen
  exact (byte1_of_validate_speed_two_bytes x b1 hv).elim h1 h2

/-- Settles O13: INTERVAL is the emission of its own frame, and 0x81 closes no 2-byte frame. -/
theorem intervalEmitsItsWholeFrame : Obligations.IntervalEmitsItsWholeFrame := by
  intro x n tail s h
  exact ⟨congrArg Host.Outcome.next (emit_frameBytes .interval x 1#3 0x81#8 h s),
    decodeWord_header_subType x 1#3 n 0x81#8,
    three_le_of_validate_speed h (by decide) (by decide)⟩

/-- Settles O14: DISTANCE is the emission of its own frame, and 0x82 closes no 2-byte frame. -/
theorem distanceEmitsItsWholeFrame : Obligations.DistanceEmitsItsWholeFrame := by
  intro x n tail s h
  exact ⟨congrArg Host.Outcome.next (emit_frameBytes .distance x 1#3 0x82#8 h s),
    decodeWord_header_subType x 1#3 n 0x82#8,
    three_le_of_validate_speed h (by decide) (by decide)⟩

/-- Settles O15: VOLTAGE is the emission of its own frame, and its row's mask leaves byte 1 out. -/
theorem voltageEmitsItsWholeFrame : Obligations.VoltageEmitsItsWholeFrame := by
  intro x n b tail s h
  exact ⟨congrArg Host.Outcome.next (emit_frameBytes .voltage x 2#3 b h s), decodeWord_header_category x 2#3 n b⟩

/-- Settles O16: the meaning is the drop of its own frame; of the 2-byte Speed frames the checksum leaves two values of
byte 1, and neither is a recognised sub-type. -/
theorem speedUnrecognizedIsDroppedSilently : Obligations.SpeedUnrecognizedIsDroppedSilently := by
  constructor
  · intro x n sub tail s h
    obtain ⟨-, h1, h2⟩ := wellFormed_speedUnrecognized_iff.mp h
    exact ⟨rfl, decodeWord_header_category x 1#3 n sub, h1, h2⟩
  · intro x b1 hv
    have hb := byte1_of_validate_speed_two_bytes x b1 hv
    have h1 : b1 ≠ 0x81#8 := by rcases hb with rfl | rfl <;> decide
    have h2 : b1 ≠ 0x82#8 := by rcases hb with rfl | rfl <;> decide
    refine ⟨hb, ?_⟩
    rw [← routeType_speedUnrecognized x 0#4 b1 [] h1 h2]
    exact decode_frameBytes_append x 1#3 0#4 b1 [] [] rfl

/-- Settles O17: each of the six meanings is the drop of its own frame, and its row's mask leaves byte 1 out. -/
theorem unrecognizedCategoriesAreDroppedSilently : Obligations.UnrecognizedCategoriesAreDroppedSilently := by
  intro x n b tail s _
  have hword (c : BitVec 3) := decodeWord_header_category x c n b
  exact ⟨⟨rfl, hword 0#3⟩, ⟨rfl, hword 3#3⟩, ⟨rfl, hword 4#3⟩, ⟨rfl, hword 5#3⟩, ⟨rfl, hword 6#3⟩,
    ⟨rfl, hword 7#3⟩⟩

end Sys2Proof.Machine
end

section
/-! PROOFS. What can go wrong (60_exceptions.md): the one record that each candidate leaves, the causes of a drop and their
codes, and that no event stops the machine. -/

namespace Sys2Proof.Machine

/-- A frame whose XOR7 is not 0 is dropped for its checksum, whatever its type (60_exceptions.md R100). -/
theorem dropOf_invalid {b0 b1 : Byte} {tail : List Byte} (hx : xor7 (b0 :: b1 :: tail) ≠ 0#8) :
    dropOf (b0 :: b1 :: tail) = some (.drop .checksum (b0 :: b1 :: tail)) :=
  if_pos hx

/-- The drop of a valid frame, by the category and byte 1 of its own bytes (42_demux.md R89, R90). -/
theorem dropOf_valid {b0 b1 : Byte} {tail : List Byte} (hx : xor7 (b0 :: b1 :: tail) = 0#8) :
    dropOf (b0 :: b1 :: tail) =
      if category b0 = 1#3 ∧ b1 = 0x81#8 then none
      else if category b0 = 1#3 ∧ b1 = 0x82#8 then none
      else if category b0 = 1#3 then some (.drop .subtype (b0 :: b1 :: tail))
      else if category b0 = 2#3 then none
      else some (.drop .category (b0 :: b1 :: tail)) := by
  have h := @dropOf_header (topBit b0) (category b0) (lengthCode b0) b1 tail
  rw [headerByte_fields] at h
  exact h hx

/-- Drop(CHECKSUM) is the drop of the invalid frames (60_exceptions.md R95). -/
theorem dropOf_eq_checksum_iff {b0 b1 : Byte} {tail : List Byte} :
    dropOf (b0 :: b1 :: tail) = some (.drop .checksum (b0 :: b1 :: tail)) ↔ xor7 (b0 :: b1 :: tail) ≠ 0#8 := by
  by_cases hx : xor7 (b0 :: b1 :: tail) = 0#8
  · rw [dropOf_valid hx]
    split_ifs <;> simp [hx]
  · simp [-xor7_cons, dropOf_invalid hx, hx]

/-- Drop(CATEGORY) is the drop of the valid frames outside the Speed and Voltage categories (60_exceptions.md R95). -/
theorem dropOf_eq_category_iff {b0 b1 : Byte} {tail : List Byte} :
    dropOf (b0 :: b1 :: tail) = some (.drop .category (b0 :: b1 :: tail)) ↔
      xor7 (b0 :: b1 :: tail) = 0#8 ∧ category b0 ≠ 1#3 ∧ category b0 ≠ 2#3 := by
  by_cases hx : xor7 (b0 :: b1 :: tail) = 0#8
  · rw [dropOf_valid hx]
    split_ifs <;> simp_all
  · simp [-xor7_cons, dropOf_invalid hx, hx]

/-- Drop(SUBTYPE) is the drop of the valid Speed frames of neither recognised sub-type (60_exceptions.md R95). -/
theorem dropOf_eq_subtype_iff {b0 b1 : Byte} {tail : List Byte} :
    dropOf (b0 :: b1 :: tail) = some (.drop .subtype (b0 :: b1 :: tail)) ↔
      xor7 (b0 :: b1 :: tail) = 0#8 ∧ category b0 = 1#3 ∧ b1 ≠ 0x81#8 ∧ b1 ≠ 0x82#8 := by
  by_cases hx : xor7 (b0 :: b1 :: tail) = 0#8
  · rw [dropOf_valid hx]
    split_ifs <;> simp_all
  · simp [-xor7_cons, dropOf_invalid hx, hx]

/-- The categories outside Speed and Voltage, in the shifted and masked header byte (42_demux.md R84, R90). -/
theorem shifted_header_mem_unrecognized_iff (b0 : Byte) :
    (b0 >>> 4) &&& 0x07#8 ∈ [0#8, 3#8, 4#8, 5#8, 6#8, 7#8] ↔ category b0 ≠ 1#3 ∧ category b0 ≠ 2#3 := by
  revert b0; decide

/-- A drop's code tells its cause (60_exceptions.md R95). -/
theorem code_drop_inj {c c' : DropCause} {f f' : List Byte} :
    (TraceEvent.drop c f).code = (TraceEvent.drop c' f').code ↔ c = c' := by
  cases c <;> cases c' <;> simp [TraceEvent.code]

/-- A frame's record shows a cause's code exactly when the frame is dropped for that cause. -/
theorem map_code_dropOf_eq_iff (c : DropCause) (f : List Byte) :
    (dropOf f).toList.map TraceEvent.code = [(TraceEvent.drop c f).code] ↔ dropOf f = some (.drop c f) := by
  cases hd : dropOf f with
  | none => simp
  | some d =>
    obtain ⟨c', rfl⟩ := dropOf_eq_some hd
    simp [code_drop_inj]

/-- A whole frame leaves one record: its dispatch event or its drop (40_assembler.md R69). -/
theorem length_dispatchEventOf_add_length_dropOf {f : List Byte} (hw : wholeFrame f = true) :
    (dispatchEventOf f).toList.length + (dropOf f).toList.length = 1 := by
  obtain ⟨b0, b1, tail, rfl, -⟩ := wholeFrame_cases hw
  by_cases hx : xor7 (b0 :: b1 :: tail) = 0#8
  · rw [dispatchEventOf_valid ((validate_iff _).mpr hx), dropOf_valid hx]
    split_ifs <;> simp_all
  · have he : dispatchEventOf (b0 :: b1 :: tail) = none := if_pos hx
    rw [he, dropOf_invalid hx]
    rfl

/-- Settles O20: the candidate's records are its dispatch event and its drop, of which it has one, and the drop's code and
cause say the same. -/
theorem eachCandidateGivesOneEventOrOneDrop : Obligations.EachCandidateGivesOneEventOrOneDrop := by
  rintro f tl b0 b1 s rfl hw
  refine ⟨(dispatchEventOf _).toList, (dropOf _).toList, ?_, length_dispatchEventOf_add_length_dropOf hw,
    fun e he => ?_, fun d hd => dropOf_eq_some (Option.mem_toList.mp hd), ?_⟩
  · rw [finishCandidate_judge hw, ← recordFrames_singleton_out, ← recordFrames_singleton_trace]
    rfl
  · exact (dispatchEventOf_eq_some (Option.mem_toList.mp he)).2
  · have hcode (c : DropCause) := map_code_dropOf_eq_iff c (b0 :: b1 :: tl)
    rw [shifted_header_mem_unrecognized_iff, (shifted_header_eq_iff b0).1]
    simp only [Option.toList_eq_singleton_iff]
    exact ⟨(hcode .checksum).trans dropOf_eq_checksum_iff, dropOf_eq_checksum_iff,
      (hcode .category).trans dropOf_eq_category_iff, dropOf_eq_category_iff,
      (hcode .subtype).trans dropOf_eq_subtype_iff, dropOf_eq_subtype_iff⟩

/-- A FEED to a buffer that is empty or stamped answers a next state, on time or not (40_assembler.md R63). -/
theorem step_feed_next {s : State} {now : Nat} {chunk : List Byte} {rest : List Event}
    (ha : awaits (.feed now chunk) rest s) (hs : s.buf ≠ [] → s.lastV = true) : ∃ t, step s = .next t := by
  by_cases ho : onTime now s
  · obtain ⟨fs, r, hc⟩ := exists_cutsInto (keptBytes now s ++ chunk)
    exact ⟨_, step_feed_of_cutsInto ha ho hs hc⟩
  · exact ⟨_, step_feed_late ha ho⟩

/-- Settles O30, by the event presented: with none the machine idles, RESET always answers, and the invariant has the
buffer of a FEED empty or stamped. -/
theorem noEventStopsTheMachine : Obligations.NoEventStopsTheMachine := by
  intro s hi
  match hin : s.inputs with
  | [] => exact ⟨s, noEventLeavesTheStateAlone s hi.verdictGivenUp hin⟩
  | .reset :: rest => exact ⟨_, step_reset ⟨hi.verdictGivenUp, hin⟩⟩
  | .feed now chunk :: rest => exact step_feed_next ⟨hi.verdictGivenUp, hin⟩ hi.bufferStamped

end Sys2Proof.Machine
end

section
/-! PROOFS. The RESET event (70_reset_and_hazards.md R109): what it leaves unwritten, and that twice is once. -/

namespace Sys2Proof.Machine

/-- The timestamp is unwritten after a RESET, so that reading it faults (10_state.md R22). -/
@[simp] theorem readLastT_resetBlock (s : State) : readLastT (resetBlock s) = .error .lastTUnwritten := rfl

@[simp] theorem lastV_resetBlock (s : State) : (resetBlock s).lastV = false := rfl

/-- A second RESET finds nothing left to clear, whichever events were waiting at the first. -/
theorem resetBlock_resetBlock (s : State) (rest : List Event) :
    resetBlock { resetBlock s with inputs := rest } = resetBlock { s with inputs := rest } := rfl

/-- A RESET presented before another leaves a state that awaits the other. -/
theorem awaits_reset_resetBlock {s : State} (rest : List Event) (hok : s.ok = false) :
    awaits .reset rest (resetBlock { s with inputs := .reset :: rest }) := ⟨hok, rfl⟩

/-- Two RESETs in a row end in the next state of one. -/
theorem step_reset_reset {s : State} {rest : List Event} (h : awaits .reset rest s) :
    andThen (step { s with inputs := .reset :: .reset :: rest }) step = step s := by
  have hfirst : awaits .reset (.reset :: rest) { s with inputs := .reset :: .reset :: rest } := ⟨h.1, rfl⟩
  rw [step_reset hfirst, andThen_next, step_reset (awaits_reset_resetBlock rest h.1), resetBlock_resetBlock,
    step_reset h]

/-- Settles O40: the next state of a RESET is the cleared one, and a second RESET gives it again. -/
theorem resetEventClearsBufferAndTimestamp : Obligations.ResetEventClearsBufferAndTimestamp :=
  fun _ _ ha => ⟨⟨_, step_reset ha, rfl, lastV_resetBlock _, readLastT_resetBlock _⟩, step_reset_reset ha⟩

end Sys2Proof.Machine
end
